-- ==== Sys2Proof/Word.lean ====
section
/-! DEFINITION. The words of CORE (spec/00_scope.md R11, R15): bytes, 32-bit words, packets. -/

namespace Sys2Proof

/-- An unsigned 8-bit value (R11, R15). -/
abbrev Byte := BitVec 8

/-- An unsigned 32-bit value, bit 0 the least significant (R11, R15). -/
abbrev Word := BitVec 32

/-- A packet is a finite string of bytes, possibly empty, whose end is given by the framing (R70). -/
abbrev Packet := List Byte

end Sys2Proof
end

