-- ==== Sys2Proof/Machine/Arith.lean ====
section
/-! DEFINITION. The modular arithmetic unit (spec/40_word_arithmetic.md R100 to R110): total, pure, unsigned functions
that wrap silently; no flags, no exceptions. -/

namespace Sys2Proof.Machine

/-- `add32` (R101): `(a + b) mod 2^32`. -/
def add32 (a b : Word) : Word := a + b

/-- `sub32` (R102): `(a - b) mod 2^32`. -/
def sub32 (a b : Word) : Word := a - b

/-- `shl32` (R103): `(a * 2^n) mod 2^32`. -/
def shl32 (a : Word) (n : Nat) : Word := a <<< n

/-- `shr32` (R104): `floor(a / 2^n)`, logical. -/
def shr32 (a : Word) (n : Nat) : Word := a >>> n

/-- `xor32` (R105): bitwise exclusive-or. -/
def xor32 (a b : Word) : Word := a ^^^ b

/-- `add8` (R106): `(a + b) mod 2^8`. -/
def add8 (a b : Byte) : Byte := a + b

/-- `sub8` (R107): `(a - b) mod 2^8`. -/
def sub8 (a b : Byte) : Byte := a - b

/-- `shl8` (R108): `(a * 2^n) mod 2^8`. -/
def shl8 (a : Byte) (n : Nat) : Byte := a <<< n

/-- `shr8` (R109): `floor(a / 2^n)`, logical. -/
def shr8 (a : Byte) (n : Nat) : Byte := a >>> n

/-- `xor8` (R110): bitwise exclusive-or. -/
def xor8 (a b : Byte) : Byte := a ^^^ b

end Sys2Proof.Machine
end

