-- ==== Sys2Proof/Config.lean ====
section
/-! DEFINITION. The configuration: the constants that are hard-wired in CORE (spec/00_scope.md R7 to R13,
decision D25 asks for named fields), and the free values. The one value the spec gives the fields is `Machine.cfg`. -/

namespace Sys2Proof

/-- The hard-wired constants of CORE, as named fields (R13, D25). No command reads or writes them. -/
structure Config where
  /-- Round count, block and tail alike (R7). -/
  times    : Nat
  /-- Round delta (R8). -/
  delta    : Word
  /-- Decrypt starting accumulator (R9). -/
  sum0     : Word
  /-- The pad ROM, index 0 the first character (R10, R51). -/
  pad      : Vector Byte 8
  /-- Left shift of the block round (R12). -/
  shlB     : Nat
  /-- Right shift of the block round (R12). -/
  shrB     : Nat
  /-- Left shift of the tail round (R12). -/
  shlT     : Nat
  /-- Right shift of the tail round (R12). -/
  shrT     : Nat
  /-- Key length in bytes (R11). -/
  keyLen   : Nat
  /-- Block length in bytes (R11). -/
  blockLen : Nat
  deriving DecidableEq, Repr

/-- The value a transient register holds after a finish step: unspecified (R43, U1), so a constant nothing can
evaluate. `w` is the register's width, `reg` its number, `n` the model's counter (log 4). -/
opaque Config.freeValue (w reg n : Nat) : BitVec w

end Sys2Proof
end

