-- ==== Sys2Proof/Machine/Params.lean ====
section
/-! DEFINITION. The values of the hard-wired constants (spec/00_scope.md R7 to R12), "the only values this spec
defines" (R13). UNVERIFIED against the original program: its numeric literals are unaudited (R13, N20; log 11). -/

namespace Sys2Proof.Machine

/-- `TIMES`, `DELTA`, `SUM0`, `PAD` ("hicomtea" in ASCII, R10), the shift amounts and the sizes (R7 to R12). -/
def cfg : Config where
  times    := 32
  delta    := 0x9E3779B9#32
  sum0     := 0xC6EF3720#32
  pad      := #v[0x68#8, 0x69#8, 0x63#8, 0x6F#8, 0x6D#8, 0x74#8, 0x65#8, 0x61#8]
  shlB     := 6
  shrB     := 3
  shlT     := 3
  shrT     := 2
  keyLen   := 16
  blockLen := 8

end Sys2Proof.Machine
end

