-- ==== Sys2Proof/Syntax.lean ====
section
/-! DEFINITION. The commands of CORE (spec/30_encoding.md R72, R73; every row of spec/opcode_table.json is a
constructor of `Instr`), the statuses and the errors a command may be answered with (spec/60_exceptions.md R230). -/

namespace Sys2Proof

/-- The seven opcodes of R73, by name. -/
inductive Opcode where
  | stat | ldkey | clrkey | encblk | decblk | enctail | dectail
  deriving DecidableEq, Repr

/-- A command: its opcode and its payload, the bytes after byte 0 (R72). The payload may have ANY length: the end of
a packet is known from the framing, and a payload of the wrong length is a complete command that is answered with an
error (R72, R78), so ill-sized commands are commands too (log 9). -/
inductive Instr where
  /-- `STAT` (45_system R221); required payload: none. -/
  | stat    (payload : Packet)
  /-- `LDKEY` (41_word_codec R130, R131); required payload: the 16 key bytes. -/
  | ldkey   (payload : Packet)
  /-- `CLRKEY` (45_system R222); required payload: none. -/
  | clrkey  (payload : Packet)
  /-- `ENCBLK` (42_block_transform R150); required payload: the 8 plaintext bytes. -/
  | encblk  (payload : Packet)
  /-- `DECBLK` (42_block_transform R151); required payload: the 8 ciphertext bytes. -/
  | decblk  (payload : Packet)
  /-- `ENCTAIL` (43_tail_diffusion R176); required payload: position byte, plaintext byte. -/
  | enctail (payload : Packet)
  /-- `DECTAIL` (43_tail_diffusion R177); required payload: position byte, ciphertext byte. -/
  | dectail (payload : Packet)
  deriving DecidableEq, Repr

/-- The opcode a command was written with. -/
def Instr.opcode : Instr → Opcode
  | .stat _ => .stat
  | .ldkey _ => .ldkey
  | .clrkey _ => .clrkey
  | .encblk _ => .encblk
  | .decblk _ => .decblk
  | .enctail _ => .enctail
  | .dectail _ => .dectail

/-- The payload of a command (R72). -/
def Instr.payload : Instr → Packet
  | .stat pl => pl
  | .ldkey pl => pl
  | .clrkey pl => pl
  | .encblk pl => pl
  | .decblk pl => pl
  | .enctail pl => pl
  | .dectail pl => pl

/-- The command with a given opcode and payload. -/
def Opcode.instr : Opcode → Packet → Instr
  | .stat => .stat
  | .ldkey => .ldkey
  | .clrkey => .clrkey
  | .encblk => .encblk
  | .decblk => .decblk
  | .enctail => .enctail
  | .dectail => .dectail

/-- The statuses of R230. `decodeError` and `malformedCiphertext` have codes and are never raised (R236, R237). -/
inductive Status where
  | ok | invalidKeyLength | decodeError | malformedCiphertext | badLength | noKey | illegalCommand
  deriving DecidableEq, Repr

/-- The errors CORE raises (R230), each with what its info byte is computed from (30_encoding R82). -/
inductive CmdError where
  /-- `LDKEY` with a payload of `n ≠ 16` bytes (R232). -/
  | invalidKeyLength (n : Nat)
  /-- A command other than `LDKEY` with a payload of the wrong length `n` (R235). -/
  | badLength (n : Nat)
  /-- A transform command while `KV = 0` (R234). -/
  | noKey
  /-- An undefined opcode, or the empty packet with `0x00` (R233). -/
  | illegalCommand (opcode : Byte)
  deriving DecidableEq, Repr

/-- Why a packet is no command: what the decoder names when it rejects (30_encoding R84, R85). -/
inductive Reject where
  /-- The packet has no byte 0. -/
  | emptyPacket
  /-- Byte 0 is not one of the seven opcodes. -/
  | illegalOpcode (opcode : Byte)
  deriving DecidableEq, Repr

end Sys2Proof
end

