-- ==== Sys2Proof/WellFormed.lean ====
section
/-! DEFINITION. Well-formed commands: the payload has the length its opcode requires (spec/30_encoding.md R73). -/

namespace Sys2Proof

/-- The column "required n" of R73: the payload length of each opcode (formats F0, FK, FB, FT of R79). -/
def Opcode.payloadLen : Opcode → Nat
  | .stat    => 0
  | .ldkey   => Machine.cfg.keyLen
  | .clrkey  => 0
  | .encblk  => Machine.cfg.blockLen
  | .decblk  => Machine.cfg.blockLen
  | .enctail => 2
  | .dectail => 2

/-- A command is well-formed when its payload has the required length (R73, R85). -/
def Instr.wf (i : Instr) : Bool := i.payload.length == i.opcode.payloadLen

end Sys2Proof
end

