-- ==== Sys2Proof/Decode.lean ====
section
/-! DEFINITION. The opcode map, the decoder and the encoder (spec/30_encoding.md R72, R73, R79, R84, R85), the status
and info bytes (R81, R82), the order of checks (R78) and the command notation (R86). -/

namespace Sys2Proof

/-- Byte 0 of each command (R73). -/
def Opcode.byte : Opcode → Byte
  | .stat    => 0x00#8
  | .ldkey   => 0x01#8
  | .clrkey  => 0x02#8
  | .encblk  => 0x10#8
  | .decblk  => 0x11#8
  | .enctail => 0x20#8
  | .dectail => 0x21#8

/-- The column "needs KV=1" of R73. -/
def Opcode.needsKey : Opcode → Bool
  | .stat | .ldkey | .clrkey => false
  | .encblk | .decblk | .enctail | .dectail => true

/-- The length of the body of the `OK` response (R73, R80). -/
def Opcode.okBodyLen : Opcode → Nat
  | .stat    => 1
  | .ldkey   => 0
  | .clrkey  => 0
  | .encblk  => 8
  | .decblk  => 8
  | .enctail => 1
  | .dectail => 1

/-- The opcodes, in the order of R73. -/
def Opcode.all : List Opcode := [.stat, .ldkey, .clrkey, .encblk, .decblk, .enctail, .dectail]

/-- The opcode a byte stands for, matched on all 8 bits; none for the 249 illegal bytes (R73, R84). -/
def Opcode.ofByte (b : Byte) : Option Opcode := Opcode.all.find? (fun o => o.byte == b)

/-- The decoder: total on any byte string, rejecting by name (R72, R84, R85). The end of the packet is the framing's,
so everything after byte 0 is payload. -/
def decode : Packet → Except Reject Instr
  | [] => .error .emptyPacket
  | b :: payload =>
    match Opcode.ofByte b with
    | some o => .ok (o.instr payload)
    | none => .error (.illegalOpcode b)

/-- The encoder: the opcode byte followed by the operand bytes in the order written (R72, R86). -/
def encode (i : Instr) : Packet := i.opcode.byte :: i.payload

/-- Status byte values (R81, R230). -/
def Status.code : Status → Byte
  | .ok                  => 0x00#8
  | .invalidKeyLength    => 0x01#8
  | .decodeError         => 0x02#8
  | .malformedCiphertext => 0x03#8
  | .badLength           => 0x04#8
  | .noKey               => 0x05#8
  | .illegalCommand      => 0x06#8

/-- The status an error is reported with (R230). -/
def CmdError.status : CmdError → Status
  | .invalidKeyLength _ => .invalidKeyLength
  | .badLength _        => .badLength
  | .noKey              => .noKey
  | .illegalCommand _   => .illegalCommand

/-- `min(n, 255)` as a byte (R82). -/
def saturate (n : Nat) : Byte := BitVec.ofNat 8 (min n 255)

/-- The info byte of an error (R82). -/
def CmdError.info : CmdError → Byte
  | .invalidKeyLength n => saturate n
  | .badLength n        => saturate n
  | .noKey              => 0x00#8
  | .illegalCommand b   => b

/-- The error response: status byte and info byte, nothing else (R80, R240). -/
def CmdError.packet (e : CmdError) : Packet := [e.status.code, e.info]

/-- The error a rejected packet is answered with (R78 lines 1 and 2, R233). -/
def Reject.toError : Reject → CmdError
  | .emptyPacket => .illegalCommand 0x00#8
  | .illegalOpcode b => .illegalCommand b

/-- The decode order of R78, lines 1 to 6, for a packet presented while the key-valid flag is `kv`: exactly one of the
seven commands with a well-sized payload, or one error (R85). The accept step does not call it: it is the rule stated
once in one place, for the atomic reading of `Machine/Atomic.lean`. -/
def verdict (kv : Bool) (p : Packet) : Except CmdError Instr :=
  match decode p with
  | .error r => .error r.toError
  | .ok i =>
    if i.opcode = .ldkey ∧ i.payload.length ≠ i.opcode.payloadLen then
      .error (.invalidKeyLength i.payload.length)
    else if i.opcode.needsKey ∧ kv = false then
      .error .noKey
    else if i.payload.length ≠ i.opcode.payloadLen then
      .error (.badLength i.payload.length)
    else
      .ok i

/-- `ENCTAIL <pos>, <byte>` of the command notation: the position is taken modulo 256 (R86). -/
def Instr.enctailAt (pos : Nat) (b : Byte) : Instr := .enctail [BitVec.ofNat 8 pos, b]

/-- `DECTAIL <pos>, <byte>` of the command notation: the position is taken modulo 256 (R86). -/
def Instr.dectailAt (pos : Nat) (b : Byte) : Instr := .dectail [BitVec.ofNat 8 pos, b]

/-- The lowest `n` bytes of a number, least significant first: byte `i` is bits `8i+7 .. 8i`. -/
def bytesOfNat : Nat → Nat → Packet
  | 0, _ => []
  | n + 1, w => BitVec.ofNat 8 w :: bytesOfNat n (w / 256)

/-- The packet of a word numbered as spec/opcode_table.json numbers it: bit 0 is the least significant bit of byte 0,
the second byte is bits 15..8. Every bit above `nbits` is 0, so the operand bytes a row gives no bits are zeros, up to
the length byte 0 requires (log 16). -/
def tablePacket (nbits w : Nat) : Packet :=
  match bytesOfNat ((nbits + 7) / 8) (w % 2 ^ nbits) with
  | [] => []
  | b :: given =>
    match Opcode.ofByte b with
    | none => b :: given
    | some o => b :: (given ++ List.replicate (o.payloadLen - given.length) 0x00#8)

/-- The instruction the decoder reads from such a word; none where it refuses. -/
def decodeTableWord (nbits w : Nat) : Option Instr :=
  match decode (tablePacket nbits w) with
  | .ok i => some i
  | .error _ => none

end Sys2Proof
end

