-- ==== Sys2Proof/Machine/State.lean ====
section
/-! DEFINITION. The state of CORE as plain data (spec/10_state.md R20 to R33, reset values R40), the host's side of
the two packet streams and the reset input (spec/30_encoding.md R70, R71; log 1), and the reasons a step can stop. -/

namespace Sys2Proof.Machine

/-- The four subkey registers `K[0..3]` (R21). -/
structure KeyRegs where
  k0 : Word
  k1 : Word
  k2 : Word
  k3 : Word
  deriving DecidableEq, Repr

/-- All four subkeys 0: their value after reset, `CLRKEY` and a failed `LDKEY` (R40, R222, R131). -/
def KeyRegs.zero : KeyRegs := ⟨0#32, 0#32, 0#32, 0#32⟩

/-- The phase `PH` (R30): `IDLE` = 0, `RUN` = 1, `RESP` = 2; "the value 3 is never taken", so there is none (log 8). -/
inductive Phase where
  | idle | run | resp
  deriving DecidableEq, Repr

/-- The running transform `OP` (R28): `ENCBLK` = 0, `DECBLK` = 1, `ENCTAIL` = 2, `DECTAIL` = 3. -/
inductive Op where
  | encblk | decblk | enctail | dectail
  deriving DecidableEq, Repr

/-- What the host does, one entry after the other (R71; the model's own data, log 1). -/
inductive HostAct where
  /-- Present the packet `p` and hold it until CORE accepts it: "the host's send has no step and waits" (R74). -/
  | send (p : Packet)
  /-- Take one response, waiting until there is one (R77). -/
  | take
  /-- Do nothing during one step. -/
  | wait
  /-- Assert the reset input for one step (R260, R261). -/
  | reset
  deriving DecidableEq, Repr

/-- The state. The fields from `k` to `rsp` are the spec's, all of R20; `todo`, `delivered` and `freeCtr` are the
model's own (logs 1, 4). -/
structure State where
  /-- `K[0..3]`, session state (R21). -/
  k   : KeyRegs
  /-- `KV`, session state (R22). -/
  kv  : Bool
  /-- `PH` (R30). -/
  ph  : Phase
  /-- `OP`, valid only while `PH = RUN` (R28). -/
  op  : Op
  /-- `V0`, block working word (R24). -/
  v0  : Word
  /-- `V1`, block working word (R24). -/
  v1  : Word
  /-- `SUM`, block accumulator (R25). -/
  sum : Word
  /-- `S`, tail accumulator and data byte (R26). -/
  sAcc : Byte
  /-- `POS`, tail position modulo 8 (R27). -/
  pos : BitVec 3
  /-- `RND`, rounds completed (R33). -/
  rnd : BitVec 6
  /-- `RSP`, the response waiting to be taken (R31). -/
  rsp : Packet
  /-- MODEL'S OWN: what the host will do, next first. -/
  todo : List HostAct
  /-- MODEL'S OWN: the responses the host has taken, oldest first. -/
  delivered : List Packet
  /-- MODEL'S OWN: index of the next free values (R43). -/
  freeCtr : Nat
  deriving DecidableEq, Repr

/-- The state right after reset (R40, R260), with a host that does nothing. -/
def State.reset : State where
  k := .zero
  kv := false
  ph := .idle
  op := .encblk
  v0 := 0#32
  v1 := 0#32
  sum := 0#32
  sAcc := 0#8
  pos := 0#3
  rnd := 0#6
  rsp := []
  todo := []
  delivered := []
  freeCtr := 0

/-- Why the machine stops with a fault. -/
inductive Fault where
  /-- Raised by `step` in phase `RUN` with `RND > 32`: R71 enables no step there, and R33 says `RND` never exceeds 32,
  so no run reaches it (DEDUCED, log 7). Safe: the machine stops where the spec gives no step. -/
  | noStepEnabled
  deriving DecidableEq, Repr

/-- Why an instruction has no meaning. -/
inductive Refusal where
  /-- Raised by `exec`'s arms for an instruction without a meaning yet; no arm does. Safe. -/
  | notModelled (mnemonic : String)
  deriving DecidableEq, Repr

end Sys2Proof.Machine
end

