-- ==== Sys2Proof/Machine/Flags.lean ====
section
/-! DEFINITION. The flags. CORE has no condition codes (spec/10_state.md R35): its one flag is `KV` (R22), shown in the
flags byte of `STAT` (spec/45_system.md R221). The 2-bit codes of `PH` and `OP` (R28, R30) stand here too. -/

namespace Sys2Proof.Machine

/-- The flags byte of `STAT`: `zext_8(KV)`, bit 0 = `KV`, bits 7:1 = 0 (R221, R36). -/
def statFlags (kv : Bool) : Byte := (BitVec.ofBool kv).setWidth 8

/-- The 2-bit code of a phase (R30). -/
def Phase.code : Phase → BitVec 2
  | .idle => 0#2
  | .run  => 1#2
  | .resp => 2#2

/-- The 2-bit code of a transform (R28): bit 0 is the direction, bit 1 the unit. -/
def Op.code : Op → BitVec 2
  | .encblk  => 0#2
  | .decblk  => 1#2
  | .enctail => 2#2
  | .dectail => 3#2

/-- The transform with a 2-bit code (R28). -/
def Op.ofCode (c : BitVec 2) : Op :=
  if c = 0#2 then .encblk else if c = 1#2 then .decblk else if c = 2#2 then .enctail else .dectail

end Sys2Proof.Machine
end

