-- ==== Sys2Proof/Machine/Codec.lean ====
section
/-! DEFINITION. The byte/word codec (spec/41_word_codec.md R120 to R127; byte order spec/20_memory.md R55): pure,
little-endian, group by group. -/

namespace Sys2Proof.Machine

/-- `byte_t(w) = w[8t+7 : 8t]` (00_scope R15). -/
def wordByte (w : Word) (t : Nat) : Byte := w.extractLsb' (8 * t) 8

/-- The word of four bytes at increasing index, least significant first (R55, R121). -/
def packWord (b0 b1 b2 b3 : Byte) : Word := b3 ++ b2 ++ b1 ++ b0

/-- The four bytes of a word, least significant first (R122). -/
def unpackWord (w : Word) : List Byte := [wordByte w 0, wordByte w 1, wordByte w 2, wordByte w 3]

/-- `bytesToWords` (R121). It has no value on a length not divisible by 4: `none`, never padded or cut (R123, D27). -/
def bytesToWords : List Byte → Option (List Word)
  | [] => some []
  | b0 :: b1 :: b2 :: b3 :: rest => (bytesToWords rest).map (packWord b0 b1 b2 b3 :: ·)
  | [_] => none
  | [_, _] => none
  | [_, _, _] => none

/-- `wordsToBytes` (R122): total, four bytes a word. -/
def wordsToBytes : List Word → List Byte
  | [] => []
  | w :: rest => unpackWord w ++ wordsToBytes rest

end Sys2Proof.Machine
end

