-- ==== Sys2Proof/Machine/Operands.lean ====
section
/-! DEFINITION. Operand assembly (spec/30_encoding.md R83): how a payload becomes register values, for every operand
form. A payload of the wrong length has no operands: `none`, never padded or cut (R131, R235). -/

namespace Sys2Proof.Machine

/-- The four words of a key, in register order (R126). -/
def KeyRegs.ofWords : List Word → Option KeyRegs
  | [k0, k1, k2, k3] => some ⟨k0, k1, k2, k3⟩
  | _ => none

/-- The two words of a block, in register order (R125). -/
def pairOfWords : List Word → Option (Word × Word)
  | [v0, v1] => some (v0, v1)
  | _ => none

/-- R83 (a): the key operand, `K[0..3] <- bytesToWords(key)`, when the payload has exactly 16 bytes. -/
def keyOfPayload (pl : Packet) : Option KeyRegs :=
  if pl.length = cfg.keyLen then (bytesToWords pl).bind KeyRegs.ofWords else none

/-- R83 (b): the block operand, `(V0, V1) <- bytesToWords(blk)`, when the payload has exactly 8 bytes. -/
def blockOfPayload (pl : Packet) : Option (Word × Word) :=
  if pl.length = cfg.blockLen then (bytesToWords pl).bind pairOfWords else none

/-- R83 (c): the position operand, `pos[2:0]`; bits 7:3 are ignored. -/
def posOfByte (b : Byte) : BitVec 3 := b.extractLsb' 0 3

/-- R83 (c), (d): the operands of a tail command, `POS` and `S`, when the payload has exactly 2 bytes. -/
def tailOfPayload : Packet → Option (BitVec 3 × Byte)
  | [p, dat] => some (posOfByte p, dat)
  | _ => none

/-- The form without operands (F0): there when the payload is empty. -/
def noOperands : Packet → Option Unit
  | [] => some ()
  | _ :: _ => none

end Sys2Proof.Machine
end

