-- ==== Sys2Proof/Machine/Ops.lean ====
section
/-! DEFINITION. The named operations over CORE's registers: the reads of the indexed spaces (spec/20_memory.md R50 to
R53), the response (`respond` of spec/30_encoding.md R74), taking an exception (`raise`, spec/60_exceptions.md R240),
the return from one (the take step, R77, R242), the key writes, the start of a transform, and the host's side. -/

namespace Sys2Proof.Machine

/-- `K[n]` (R21). -/
def KeyRegs.word (k : KeyRegs) : Fin 4 → Word
  | 0 => k.k0
  | 1 => k.k1
  | 2 => k.k2
  | 3 => k.k3

/-- `KB[j] = byte_(j mod 4)(K[floor(j/4)])`, the byte view of the key (R23, R52). -/
def KeyRegs.byte (k : KeyRegs) (j : Fin 16) : Byte := wordByte (k.word ⟨j.val / 4, by omega⟩) (j.val % 4)

/-- `PAD[a]`: one byte of the pad ROM, no side effect (R51). -/
def padByte (a : BitVec 3) : Byte := cfg.pad[a.toNat]'(a.isLt)

/-- Byte `o` of the block buffer, which is `V0`, `V1` (R50, R53). -/
def State.blockByte (s : State) (o : Fin 8) : Byte :=
  if o.val < 4 then wordByte s.v0 o.val else wordByte s.v1 (o.val - 4)

/-- `respond(OK, body)`: `RSP <- [0x00] ++ body; PH <- RESP` (R74, R80). -/
def respondOk (body : Packet) (s : State) : State := { s with rsp := Status.ok.code :: body, ph := .resp }

/-- Taking an exception, `raise E(info)`: `RSP <- [code(E), info]; PH <- RESP`. "Nothing is saved, because nothing was
changed": no pc, cause, stack or mode (R240). -/
def raise (e : CmdError) (s : State) : State := { s with rsp := e.packet, ph := .resp }

/-- The return from an exception, which is the return from every command (R242): the host receives `RSP`, then
`RSP <- empty; PH <- IDLE` (R77). -/
def takeResponse (s : State) : State :=
  { s with delivered := s.delivered ++ [s.rsp], rsp := [], ph := .idle }

/-- `K[0..3] <- k; KV <- 1` (R130). -/
def loadKey (k : KeyRegs) (s : State) : State := { s with k := k, kv := true }

/-- `K[0..3] <- 0; KV <- 0` (R131, R222). -/
def eraseKey (s : State) : State := { s with k := .zero, kv := false }

/-- The accept of a block command: `(V0, V1) <- v; SUM <- sum; RND <- 0; OP <- op; PH <- RUN` (R74, R150, R151). -/
def beginBlock (op : Op) (v : Word × Word) (sum : Word) (s : State) : State :=
  { s with v0 := v.1, v1 := v.2, sum := sum, rnd := 0#6, op := op, ph := .run }

/-- The accept of a tail command: `POS <- pos; S <- dat; RND <- 0; OP <- op; PH <- RUN` (R74, R176, R177). -/
def beginTail (op : Op) (a : BitVec 3 × Byte) (s : State) : State :=
  { s with pos := a.1, sAcc := a.2, rnd := 0#6, op := op, ph := .run }

/-- The transient registers of R43 after a finish step: unspecified, so free values (log 4). -/
def discardTransients (s : State) : State :=
  { s with
    v0 := Config.freeValue 32 0 s.freeCtr
    v1 := Config.freeValue 32 1 s.freeCtr
    sum := Config.freeValue 32 2 s.freeCtr
    sAcc := Config.freeValue 8 3 s.freeCtr
    pos := Config.freeValue 3 4 s.freeCtr
    rnd := Config.freeValue 6 5 s.freeCtr
    op := Op.ofCode (Config.freeValue 2 6 s.freeCtr)
    freeCtr := s.freeCtr + 1 }

/-- Every register of CORE at its reset value (R40, R260). The host's side and the free-value counter are not CORE's
and stay. -/
def resetRegisters (s : State) : State :=
  { State.reset with todo := s.todo, delivered := s.delivered, freeCtr := s.freeCtr }

/-- One step goes by for a host that is waiting on purpose: a leading `wait` is used up, nothing else (log 1). -/
def State.passTime (s : State) : State :=
  match s.todo with
  | .wait :: rest => { s with todo := rest }
  | _ => s

/-- The host's next action is done. -/
def State.withTodo (s : State) (rest : List HostAct) : State := { s with todo := rest }

/-- A transform needs `KV = 1`, else `NoKey` (R234); it comes before the payload question (R78). -/
def requireKey (s : State) (perform : State) : State := if s.kv then perform else raise .noKey s

/-- A command needs its operands, a payload of the required length, else `BadLength(n)` (R235). -/
def requireOperands {α : Type} (operands : Option α) (pl : Packet) (s : State) (perform : α → State) : State :=
  match operands with
  | some a => perform a
  | none => raise (.badLength pl.length) s

end Sys2Proof.Machine
end

