-- ==== Sys2Proof/Machine/BlockEngine.lean ====
section
/-! DEFINITION. The 32-round block cipher engine (spec/42_block_transform.md R140 to R149, R153): the round function,
the half-steps, one round each way, and the closed forms. Shifts bind before additions (00_scope R17). -/

namespace Sys2Proof.Machine

/-- The working values of one block: `v0`, `v1` and the accumulator (R140). -/
structure BlockState where
  v0  : Word
  v1  : Word
  sum : Word
  deriving DecidableEq, Repr

/-- `Mix(x, ka, kb, s) = ((x << 6) + ka) xor (x + s) xor ((x >> 3) + kb)` (R142). -/
def mix (x ka kb s : Word) : Word :=
  xor32 (xor32 (add32 (shl32 x cfg.shlB) ka) (add32 x s)) (add32 (shr32 x cfg.shrB) kb)

/-- Encrypt half-step A: the new `v0` (R143). -/
def encHalfA (k : KeyRegs) (v0 v1 sum : Word) : Word := add32 v0 (mix v1 (k.word 0) (k.word 1) sum)

/-- Encrypt half-step B: the new `v1`, from the already updated `v0` (R144). -/
def encHalfB (k : KeyRegs) (v0 v1 sum : Word) : Word := add32 v1 (mix v0 (k.word 2) (k.word 3) sum)

/-- Decrypt half-step B-inverse: the recovered `v1` (R147). -/
def decHalfB (k : KeyRegs) (v0 v1 sum : Word) : Word := sub32 v1 (mix v0 (k.word 2) (k.word 3) sum)

/-- Decrypt half-step A-inverse: the recovered `v0`, from the just-recovered `v1` (R147). -/
def decHalfA (k : KeyRegs) (v0 v1 sum : Word) : Word := sub32 v0 (mix v1 (k.word 0) (k.word 1) sum)

/-- `EncRound` (R145): the accumulator first, then half-step A, then half-step B from the new `v0`. -/
def encRound (k : KeyRegs) (b : BlockState) : BlockState :=
  let sum' := add32 b.sum cfg.delta
  let v0' := encHalfA k b.v0 b.v1 sum'
  let v1' := encHalfB k v0' b.v1 sum'
  ⟨v0', v1', sum'⟩

/-- `DecRound` (R148): half-step B-inverse, then A-inverse from the recovered `v1`, then the accumulator. -/
def decRound (k : KeyRegs) (b : BlockState) : BlockState :=
  let v1' := decHalfB k b.v0 b.v1 b.sum
  let v0' := decHalfA k b.v0 v1' b.sum
  ⟨v0', v1', sub32 b.sum cfg.delta⟩

/-- `n` rounds, each on the result of the one before (R146, R149, R271). -/
def rounds {α : Type} (round : α → α) : Nat → α → α
  | 0, a => a
  | n + 1, a => round (rounds round n a)

/-- `BlockEncrypt` (R146): from `sum = 0`, exactly `TIMES` rounds. -/
def blockEncrypt (k : KeyRegs) (v : Word × Word) : Word × Word :=
  let b := rounds (encRound k) cfg.times ⟨v.1, v.2, 0#32⟩
  (b.v0, b.v1)

/-- `BlockDecrypt` (R149): from `sum = SUM0`, exactly `TIMES` rounds. -/
def blockDecrypt (k : KeyRegs) (v : Word × Word) : Word × Word :=
  let b := rounds (decRound k) cfg.times ⟨v.1, v.2, cfg.sum0⟩
  (b.v0, b.v1)

/-- `SumAt(r) = (r * DELTA) mod 2^32`, the round-key schedule (R153). -/
def sumAt (r : Nat) : Word := BitVec.ofNat 32 (r * cfg.delta.toNat)

end Sys2Proof.Machine
end

