-- ==== Sys2Proof/Machine/Block.lean ====
section
/-! DEFINITION. The meanings of the block commands `ENCBLK` and `DECBLK` (spec/42_block_transform.md R150, R151): their
accept step. The 32 rounds and the finish are the steps that follow it (`Machine/Sequencer.lean`). -/

namespace Sys2Proof.Machine

/-- `ENCBLK` (R150): `KV`, then the payload, then `SUM <- 0` and phase `RUN`. -/
def execEncblk (pl : Packet) (s : State) : Host.Outcome State Fault Refusal :=
  .next (requireKey s (requireOperands (blockOfPayload pl) pl s fun v => beginBlock .encblk v 0#32 s))

/-- `DECBLK` (R151): `KV`, then the payload, then `SUM <- SUM0` and phase `RUN`. -/
def execDecblk (pl : Packet) (s : State) : Host.Outcome State Fault Refusal :=
  .next (requireKey s (requireOperands (blockOfPayload pl) pl s fun v => beginBlock .decblk v cfg.sum0 s))

end Sys2Proof.Machine
end

