-- ==== Sys2Proof/Machine/KeyLoad.lean ====
section
/-! DEFINITION. The meaning of the key load command `LDKEY` (spec/41_word_codec.md R130, R131): it ends in the accept
step. -/

namespace Sys2Proof.Machine

/-- `LDKEY`. Sixteen bytes: `K <- words; KV <- 1; respond(OK, [])` (R130). Any other length: `K <- 0; KV <- 0`, then
`InvalidKeyLength(n)`, the one error with a side effect (R131, R240). -/
def execLdkey (pl : Packet) (s : State) : Host.Outcome State Fault Refusal :=
  match keyOfPayload pl with
  | some k => .next (respondOk [] (loadKey k s))
  | none => .next (raise (.invalidKeyLength pl.length) (eraseKey s))

end Sys2Proof.Machine
end

