-- ==== Sys2Proof/Machine/System.lean ====
section
/-! DEFINITION. The meanings of the system commands `STAT` and `CLRKEY` (spec/45_system.md R220 to R222): both end in
the accept step. -/

namespace Sys2Proof.Machine

/-- `STAT` (R221): `respond(OK, [zext_8(KV)])`; with a payload, `BadLength`. -/
def execStat (pl : Packet) (s : State) : Host.Outcome State Fault Refusal :=
  .next (requireOperands (noOperands pl) pl s fun _ => respondOk [statFlags s.kv] s)

/-- `CLRKEY` (R222): `K[0..3] <- 0; KV <- 0; respond(OK, [])`; with a payload, `BadLength` and the key is kept. -/
def execClrkey (pl : Packet) (s : State) : Host.Outcome State Fault Refusal :=
  .next (requireOperands (noOperands pl) pl s fun _ => respondOk [] (eraseKey s))

end Sys2Proof.Machine
end

