-- ==== Sys2Proof/Machine/TailEngine.lean ====
section
/-! DEFINITION. The single-byte tail-diffusion engine (spec/43_tail_diffusion.md R170 to R175): the round constant,
one round each way, and the closed forms. Shifts bind before additions (00_scope R17). -/

namespace Sys2Proof.Machine

/-- The key byte of a position, `KB[POS[1:0]]`: one of the first four key bytes (R172, D16). -/
def tailKeyByte (k : KeyRegs) (pos : BitVec 3) : Byte := k.byte ⟨pos.toNat % 4, by omega⟩

/-- `TailC(POS, K) = ((m << 3) + k) xor ((m >> 2) + k)` with `m = PAD[POS]`, every operation at 8 bits (R171, R173). -/
def tailC (k : KeyRegs) (pos : BitVec 3) : Byte :=
  let m := padByte pos
  let kb := tailKeyByte k pos
  xor8 (add8 (shl8 m cfg.shlT) kb) (add8 (shr8 m cfg.shrT) kb)

/-- One encrypt round of a tail byte (R174). -/
def encTailRound (k : KeyRegs) (pos : BitVec 3) (s : Byte) : Byte := add8 s (tailC k pos)

/-- One decrypt round of a tail byte (R175). -/
def decTailRound (k : KeyRegs) (pos : BitVec 3) (s : Byte) : Byte := sub8 s (tailC k pos)

/-- `TailEncrypt` (R174): exactly `TIMES` rounds from the input byte. -/
def tailEncrypt (k : KeyRegs) (pos : BitVec 3) (b : Byte) : Byte := rounds (encTailRound k pos) cfg.times b

/-- `TailDecrypt` (R175): exactly `TIMES` rounds from the input byte. -/
def tailDecrypt (k : KeyRegs) (pos : BitVec 3) (b : Byte) : Byte := rounds (decTailRound k pos) cfg.times b

end Sys2Proof.Machine
end

