-- ==== Sys2Proof/Machine/Tail.lean ====
section
/-! DEFINITION. The meanings of the tail commands `ENCTAIL` and `DECTAIL` (spec/43_tail_diffusion.md R176, R177): their
accept step. The 32 rounds and the finish are the steps that follow it (`Machine/Sequencer.lean`). -/

namespace Sys2Proof.Machine

/-- `ENCTAIL` (R176): `KV`, then the payload, then `POS`, `S` and phase `RUN`. -/
def execEnctail (pl : Packet) (s : State) : Host.Outcome State Fault Refusal :=
  .next (requireKey s (requireOperands (tailOfPayload pl) pl s fun a => beginTail .enctail a s))

/-- `DECTAIL` (R177): `KV`, then the payload, then `POS`, `S` and phase `RUN`. -/
def execDectail (pl : Packet) (s : State) : Host.Outcome State Fault Refusal :=
  .next (requireKey s (requireOperands (tailOfPayload pl) pl s fun a => beginTail .dectail a s))

end Sys2Proof.Machine
end

