-- ==== Sys2Proof/Machine/Dispatch.lean ====
section
/-! DEFINITION. One arm per command (spec/30_encoding.md R73): what the accept step does with it. -/

namespace Sys2Proof.Machine

def exec (i : Instr) (s : State) : Host.Outcome State Fault Refusal :=
  match i with
  | .stat pl => Sys2Proof.Machine.execStat pl s
  | .ldkey pl => Sys2Proof.Machine.execLdkey pl s
  | .clrkey pl => Sys2Proof.Machine.execClrkey pl s
  | .encblk pl => Sys2Proof.Machine.execEncblk pl s
  | .decblk pl => Sys2Proof.Machine.execDecblk pl s
  | .enctail pl => Sys2Proof.Machine.execEnctail pl s
  | .dectail pl => Sys2Proof.Machine.execDectail pl s

end Sys2Proof.Machine
end

