-- ==== Sys2Proof/Machine/Sequencer.lean ====
section
/-! DEFINITION. The sequencer: the accept, round, finish, take and reset steps (spec/30_encoding.md R71, R74 to R77;
spec/70_reset_and_hazards.md R260 to R262), and what CORE does in each phase. -/

namespace Sys2Proof.Machine

/-- The accept step on the packet `p` (R74): no command, an error response (R78 lines 1, 2); a command, its meaning. -/
def accept (p : Packet) (s : State) : Host.Outcome State Fault Refusal :=
  match decode p with
  | .error r => .next (raise r.toError s)
  | .ok i => exec i s

/-- The block registers as the engine's working values, and back. -/
def State.blockState (s : State) : BlockState := ⟨s.v0, s.v1, s.sum⟩

def State.withBlockState (s : State) (b : BlockState) : State := { s with v0 := b.v0, v1 := b.v1, sum := b.sum }

/-- One round of the transform named by `OP` (R75). -/
def roundOf (s : State) : State :=
  match s.op with
  | .encblk => s.withBlockState (encRound s.k s.blockState)
  | .decblk => s.withBlockState (decRound s.k s.blockState)
  | .enctail => { s with sAcc := encTailRound s.k s.pos s.sAcc }
  | .dectail => { s with sAcc := decTailRound s.k s.pos s.sAcc }

/-- The round step: one round, then `RND <- RND + 1` (R75). -/
def roundStep (s : State) : State :=
  let s' := roundOf s
  { s' with rnd := s'.rnd + 1#6 }

/-- The result bytes of the transform named by `OP` (R76, R152). -/
def resultBody (s : State) : Packet :=
  match s.op with
  | .encblk | .decblk => wordsToBytes [s.v0, s.v1]
  | .enctail | .dectail => [s.sAcc]

/-- The finish step: `RSP <- [0x00] ++ result; PH <- RESP` (R76); the transient registers are unspecified from then on
(R43). -/
def finishStep (s : State) : State := discardTransients (respondOk (resultBody s) s)

/-- Phase `IDLE`: only accept is enabled, when the host presents a packet (R71, R74); else CORE waits. -/
def idleStep (s : State) : Host.Outcome State Fault Refusal :=
  match s.todo with
  | .send p :: rest => accept p (s.withTodo rest)
  | _ => .next s.passTime

/-- Phase `RUN`: only round (`RND < 32`) or finish (`RND = 32`) is enabled (R71, R75, R76); for `RND > 32` no step is
(log 7). A packet or a take the host has ready waits (R74). -/
def runStep (s : State) : Host.Outcome State Fault Refusal :=
  if s.rnd.toNat < cfg.times then .next (roundStep s.passTime)
  else if s.rnd.toNat = cfg.times then .next (finishStep s.passTime)
  else .fault .noStepEnabled

/-- Phase `RESP`: only take is enabled, when the host takes (R71, R77); else CORE holds the response, without limit. -/
def respStep (s : State) : Host.Outcome State Fault Refusal :=
  match s.todo with
  | .take :: rest => .next (takeResponse (s.withTodo rest))
  | _ => .next s.passTime

/-- The step of the phase, when reset is not asserted (R71). -/
def phaseStep (s : State) : Host.Outcome State Fault Refusal :=
  match s.ph with
  | .idle => idleStep s
  | .run => runStep s
  | .resp => respStep s

/-- The reset step, when the host asserts reset: enabled in every phase, with precedence over the phase's own step
(R260, R261). A command in progress is abandoned, its response never delivered (R262). -/
def resetStep (s : State) : Option State :=
  match s.todo with
  | .reset :: rest => some (resetRegisters (s.withTodo rest))
  | _ => none

end Sys2Proof.Machine
end

