-- ==== Sys2Proof/Machine/Step.lean ====
section
/-! DEFINITION. One step of the machine (spec/30_encoding.md R71): the reset step if reset is asserted, else the step of
the phase. CORE has no program counter (spec/10_state.md R34): `PH`, `OP`, `RND` and the host say what happens next. -/

namespace Sys2Proof.Machine

/-- One step (R71, 70_reset R261). -/
def step (s : State) : Host.Outcome State Fault Refusal :=
  match resetStep s with
  | some s' => .next s'
  | none => phaseStep s

/-- `s` with a command packet (numbered as spec/opcode_table.json numbers it) presented by the host, and CORE in the
phase that accepts one: the next step accepts exactly that packet. A packet is accepted only in `IDLE` (R74), where
`RSP` is empty (10_state R31), so both are part of the fetch (log 2). -/
def State.withFetchWord (s : State) (nbits w : Nat) : State :=
  { s with ph := .idle, rsp := [], todo := .send (tablePacket nbits w) :: s.todo }

end Sys2Proof.Machine
end

