-- ==== Sys2Proof/Machine/Message.lean ====
section
/-! DEFINITION. The functions over whole messages (spec/44_cipher_engine.md R190, R194, R201): the split of a message by
length alone, and `Encrypt` and `Decrypt`. -/

namespace Sys2Proof.Machine

/-- `A = floor(L/8) * 8`, the length of the aligned region (R190). -/
def alignedLen (msg : List Byte) : Nat := msg.length / cfg.blockLen * cfg.blockLen

/-- `NB = A / 8`, the number of blocks (R190). -/
def numBlocks (msg : List Byte) : Nat := alignedLen msg / cfg.blockLen

/-- `T = L - A`, the length of the tail region (R190). -/
def tailLen (msg : List Byte) : Nat := msg.length - alignedLen msg

/-- `b[i..j)`: the bytes at indices `i` to `j - 1` (00_scope R15). -/
def slice (bs : List Byte) (i j : Nat) : List Byte := (bs.take j).drop i

/-- Block `b` of a message, `msg[8b .. 8b+8)` (R190). -/
def msgBlock (msg : List Byte) (b : Nat) : List Byte := slice msg (cfg.blockLen * b) (cfg.blockLen * b + cfg.blockLen)

/-- The blocks of a message, in ascending order (R190, R192). -/
def msgBlocks (msg : List Byte) : List (List Byte) := (List.range (numBlocks msg)).map (msgBlock msg)

/-- The tail bytes of a message, each with its absolute position (R190, R201). -/
def msgTail (msg : List Byte) : List (Byte × Nat) := (msg.drop (alignedLen msg)).zipIdx (alignedLen msg)

/-- One block through a transform of word pairs: `wordsToBytes(f(bytesToWords(blk)))`; no value on bytes that are no
block (R194, R123). -/
def blockBytes (f : Word × Word → Word × Word) (blk : List Byte) : Option (List Byte) :=
  (blockOfPayload blk).map fun v => wordsToBytes [(f v).1, (f v).2]

/-- A whole message under 16 key bytes' words: the blocks, then the tail bytes, each at its own place (R194). -/
def transformMessage (blk : Word × Word → Word × Word) (tail : BitVec 3 → Byte → Byte) (msg : List Byte) :
    Option (List Byte) :=
  ((msgBlocks msg).mapM (blockBytes blk)).map fun bs =>
    bs.flatten ++ (msgTail msg).map fun bi => tail (BitVec.ofNat 3 bi.2) bi.1

/-- `Encrypt(msg, key)`: none ("fails with `InvalidKeyLength` and returns nothing") for a key not of 16 bytes (R194). -/
def encrypt (msg key : List Byte) : Option (List Byte) :=
  (keyOfPayload key).bind fun k => transformMessage (blockEncrypt k) (tailEncrypt k) msg

/-- `Decrypt(ct, key)` (R194). -/
def decrypt (ct key : List Byte) : Option (List Byte) :=
  (keyOfPayload key).bind fun k => transformMessage (blockDecrypt k) (tailDecrypt k) ct

end Sys2Proof.Machine
end

