-- ==== Sys2Proof/Machine/Atomic.lean ====
section
/-! DEFINITION. The atomic reading of a command (spec/30_encoding.md R89): the response to a packet and the session
state after it, computed in one go from the closed forms, by the decode order of R78. The machine does NOT run this: it
is the clear function the step-by-step machine is compared with (spec/20_memory.md R64, R68). -/

namespace Sys2Proof.Machine

/-- The session state (10_state R20): what lasts from one command to the next. -/
structure Session where
  k  : KeyRegs
  kv : Bool
  deriving DecidableEq, Repr

/-- The session part of a state. -/
def State.session (s : State) : Session := ⟨s.k, s.kv⟩

/-- The `OK` response with a body (R80). -/
def okPacket (body : Packet) : Packet := Status.ok.code :: body

/-- A well-sized command under the session `c`: the session after it and the response (R73, R130, R150, R151, R176,
R177, R221, R222). No value for a payload that has no operands. -/
def performAtomic (c : Session) : Instr → Option (Session × Packet)
  | .stat _ => some (c, okPacket [statFlags c.kv])
  | .ldkey pl => (keyOfPayload pl).map fun k => (⟨k, true⟩, okPacket [])
  | .clrkey _ => some (⟨.zero, false⟩, okPacket [])
  | .encblk pl => (blockBytes (blockEncrypt c.k) pl).map fun body => (c, okPacket body)
  | .decblk pl => (blockBytes (blockDecrypt c.k) pl).map fun body => (c, okPacket body)
  | .enctail pl => (tailOfPayload pl).map fun a => (c, okPacket [tailEncrypt c.k a.1 a.2])
  | .dectail pl => (tailOfPayload pl).map fun a => (c, okPacket [tailDecrypt c.k a.1 a.2])

/-- The session after an error: only a failed `LDKEY` changes it (R240). -/
def sessionAfterError (c : Session) : CmdError → Session
  | .invalidKeyLength _ => ⟨.zero, false⟩
  | .badLength _ => c
  | .noKey => c
  | .illegalCommand _ => c

/-- The session after the packet `p` and the one response to it (R63, R68, R78). -/
def answer (c : Session) (p : Packet) : Option (Session × Packet) :=
  match verdict c.kv p with
  | .error e => some (sessionAfterError c e, e.packet)
  | .ok i => performAtomic c i

/-- How many steps CORE takes from the accept step to `RESP`: 34 for a transform, 1 for every other command and for
any error (70_reset R279). -/
def stepsOf (c : Session) (p : Packet) : Nat :=
  match verdict c.kv p with
  | .error _ => 1
  | .ok i => if i.opcode.needsKey then 1 + cfg.times + 1 else 1

end Sys2Proof.Machine
end

