-- ==== Sys2Proof/Machine/Driver.lean ====
section
/-! DEFINITION. The host driver (spec/44_cipher_engine.md R191 to R193, R199, R200): `send`, and the pseudo-commands
`ENCMSG` and `DECMSG` (spec/30_encoding.md R87) run on the machine, command by command, stopping at the first error. -/

namespace Sys2Proof.Machine

/-- `n` steps of the machine, stopping at the first fault or refusal. -/
def runSteps : Nat → State → Host.Outcome State Fault Refusal
  | 0, s => .next s
  | n + 1, s =>
    match step s with
    | .next s' => runSteps n s'
    | .fault f => .fault f
    | .refused r => .refused r

/-- Steps that are enough for one exchange: accept, `TIMES` rounds, finish, take (70_reset R279). -/
def exchangeSteps : Nat := cfg.times + 3

/-- `send(c)` of R192: present the packet, wait, take the response. The driver is the host, so it sets what the host
does next; the result is the response and the state after the take, none if no response came (log 14). -/
def exchange (p : Packet) (s : State) : Option (Packet × State) :=
  match runSteps exchangeSteps (s.withTodo [.send p, .take]) with
  | .next t =>
    match t.delivered.drop s.delivered.length with
    | [r] => some (r, t)
    | _ => none
  | .fault _ => none
  | .refused _ => none

/-- How a call ends: with the output bytes, or with the error response that ended it (R199). -/
inductive CallResult where
  | done (out : List Byte)
  | failed (response : Packet)
  deriving DecidableEq, Repr

/-- The body of an `OK` response; none for an error response (R80). -/
def okBody : Packet → Option Packet
  | [] => none
  | st :: body => if st = Status.ok.code then some body else none

/-- `send(CLRKEY)`, the end of a call (R192, R200). -/
def endCall (result : CallResult) (s : State) : Option (CallResult × State) :=
  (exchange (encode (.clrkey [])) s).map fun rs => (result, rs.2)

/-- The transform commands of a call in order, appending each body to the output; at a response other than `OK` the
output is discarded and the call ends with the error (R192, R199). -/
def sendUnits : List Instr → List Byte → State → Option (CallResult × State)
  | [], out, s => endCall (.done out) s
  | i :: rest, out, s =>
    match exchange (encode i) s with
    | none => none
    | some (r, s') =>
      match okBody r with
      | some body => sendUnits rest (out ++ body) s'
      | none => endCall (.failed r) s'

/-- The transform commands of `ENCMSG`: a block command per block, a tail command per tail byte with its absolute
position modulo 256 (R192, R201). -/
def encUnits (msg : List Byte) : List Instr :=
  (msgBlocks msg).map .encblk ++ (msgTail msg).map fun bi => .enctailAt bi.2 bi.1

/-- The transform commands of `DECMSG` (R193). -/
def decUnits (ct : List Byte) : List Instr :=
  (msgBlocks ct).map .decblk ++ (msgTail ct).map fun bi => .dectailAt bi.2 bi.1

/-- One call: `LDKEY` with the key as given; a response other than `OK` ends the call with that error and no further
command (R191, R199); else the units and `CLRKEY`. -/
def call (key : List Byte) (units : List Instr) (s : State) : Option (CallResult × State) :=
  match exchange (encode (.ldkey key)) s with
  | none => none
  | some (r, s') =>
    match okBody r with
    | some _ => sendUnits units [] s'
    | none => some (.failed r, s')

/-- `ENCMSG key, msg` (R192). -/
def encMsg (key msg : List Byte) (s : State) : Option (CallResult × State) := call key (encUnits msg) s

/-- `DECMSG key, ct` (R193). -/
def decMsg (key ct : List Byte) (s : State) : Option (CallResult × State) := call key (decUnits ct) s

end Sys2Proof.Machine
end

