-- ==== Sys2Proof/Safety.lean ====
section
/-! DEFINITION. What a good state of CORE is: the invariant the claims use, part by part, each with the rule it comes
from. -/

namespace Sys2Proof.Machine

/-- The shape of a response packet (spec/30_encoding.md R80, R81): `OK` and a body of 0, 1 or 8 bytes, or one of the
four error statuses CORE produces and one info byte. -/
def wellFormedResponse : Packet → Bool
  | [] => false
  | st :: rest =>
    if st = Status.ok.code then rest.length == 0 || rest.length == 1 || rest.length == 8
    else (st == Status.invalidKeyLength.code || st == Status.badLength.code || st == Status.noKey.code
      || st == Status.illegalCommand.code) && rest.length == 1

/-- R31: `RSP` is empty except in phase `RESP`, where it holds one response packet; and every response the host has
taken had that shape too (R80). -/
abbrev State.RspInv (s : State) : Prop :=
  (s.ph ≠ .resp → s.rsp = []) ∧ (s.ph = .resp → wellFormedResponse s.rsp = true) ∧
    ∀ r ∈ s.delivered, wellFormedResponse r = true

/-- R33, R30: `RND` never exceeds 32 while a transform runs. -/
abbrev State.RoundInv (s : State) : Prop := s.ph = .run → s.rnd.toNat ≤ 32

/-- R22, R234: a transform runs only with a validated key. With no key, `K` is 0 (DEDUCED, log 18, from R40, R131, R222: whatever
clears `KV` clears `K`). -/
abbrev State.KeyInv (s : State) : Prop := (s.ph = .run → s.kv = true) ∧ (s.kv = false → s.k = .zero)

/-- R153, R25: the accumulator of a running block is on the schedule: `SumAt(RND)` for `ENCBLK`, `SumAt(32 - RND)` for
`DECBLK`. -/
abbrev State.SumInv (s : State) : Prop :=
  s.ph = .run → (s.op = .encblk → s.sum = sumAt s.rnd.toNat) ∧ (s.op = .decblk → s.sum = sumAt (32 - s.rnd.toNat))

/-- A good state: all four parts. -/
abbrev State.Inv (s : State) : Prop := s.RspInv ∧ s.RoundInv ∧ s.KeyInv ∧ s.SumInv

/-- A safe run: `n` steps from `s` end neither in a fault nor in a refusal, in a good state. -/
def SafeRun (n : Nat) (s : State) : Prop := ∃ t, runSteps n s = .next t ∧ t.Inv

end Sys2Proof.Machine
end

