-- ==== Sys2Proof/Certificates/Slice0/Obligations.lean ====
section
/-! DEFINITION. The statements for the provers. Each docstring names the rule of spec/ it formalises. Numbers are written
out as the spec writes them, not through `cfg`. -/

open Sys2Proof Sys2Proof.Machine

/-- The little-endian word of four bytes, in the spec's own formula: `b0 + 2^8*b1 + 2^16*b2 + 2^24*b3` (R55, R121). -/
def Sys2Proof.leWord (b0 b1 b2 b3 : Byte) : Word :=
  BitVec.ofNat 32 (b0.toNat + 2 ^ 8 * b1.toNat + 2 ^ 16 * b2.toNat + 2 ^ 24 * b3.toNat)

/-- `min(n, 255)` as a byte, in the spec's own formula (R82). -/
def Sys2Proof.min255 (n : Nat) : Byte := BitVec.ofNat 8 (min n 255)

/-- What an observer of the interface and of the session sees of a state: everything but the transient round registers
and the model's free-value counter (R29, R43). -/
def Sys2Proof.Machine.State.visible (s : State) : KeyRegs × Bool × Phase × Packet × List HostAct × List Packet :=
  (s.k, s.kv, s.ph, s.rsp, s.todo, s.delivered)

/-- The transient round registers of a state (R38). -/
def Sys2Proof.Machine.State.transients (s : State) : Word × Word × Word × Byte × BitVec 3 × BitVec 6 × Op :=
  (s.v0, s.v1, s.sum, s.sAcc, s.pos, s.rnd, s.op)

/-! ### Constants -/

/-- R7, R8, R9, R12: the round count, the delta, `SUM0 = (32 * DELTA) mod 2^32` and the shift amounts. -/
def Obligations.ConstantsAreTheSpecs : Prop :=
  cfg.times = 32 ∧ cfg.delta = 0x9E3779B9#32 ∧ cfg.sum0 = 0xC6EF3720#32 ∧
    cfg.sum0 = BitVec.ofNat 32 (32 * 0x9E3779B9) ∧
    cfg.shlB = 6 ∧ cfg.shrB = 3 ∧ cfg.shlT = 3 ∧ cfg.shrT = 2 ∧ cfg.keyLen = 16 ∧ cfg.blockLen = 8

/-- R10, R51: the pad ROM holds the ASCII bytes of "hicomtea". -/
def Obligations.PadIsHicomtea : Prop :=
  (List.range 8).map (fun i => padByte (BitVec.ofNat 3 i)) = "hicomtea".toList.map fun c => BitVec.ofNat 8 c.toNat

/-! ### The arithmetic unit -/

/-- R101: `add32`, the exact sum reduced modulo `2^32`. -/
def Obligations.Add32WrapsSilently : Prop :=
  ∀ a b c : Word,
    (add32 a b).toNat = (a.toNat + b.toNat) % 2 ^ 32 ∧ add32 a 0#32 = a ∧ add32 a b = add32 b a ∧
      add32 (add32 a b) c = add32 a (add32 b c) ∧
      add32 0xFFFFFFFF#32 0x00000001#32 = 0x00000000#32 ∧ add32 0x9E3779B9#32 0x9E3779B9#32 = 0x3C6EF372#32

/-- R102: `sub32`, the unique `r` with `add32(r, b) = a`, which is `(a + 2^32 - b) mod 2^32`. -/
def Obligations.Sub32WrapsSilently : Prop :=
  ∀ a b : Word,
    (sub32 a b).toNat = (a.toNat + 2 ^ 32 - b.toNat) % 2 ^ 32 ∧ (∀ r, add32 r b = a ↔ r = sub32 a b) ∧
      sub32 a a = 0#32 ∧ sub32 0#32 1#32 = 0xFFFFFFFF#32 ∧ sub32 0x00000000#32 0x9E3779B9#32 = 0x61C88647#32 ∧
      sub32 0xC6EF3720#32 0x9E3779B9#32 = 0x28B7BD67#32

/-- R103, R104: the left shift is a product reduced modulo `2^32`, the right shift a logical quotient. -/
def Obligations.Shifts32AreLogical : Prop :=
  ∀ (a : Word) (n : Nat),
    (shl32 a n).toNat = a.toNat * 2 ^ n % 2 ^ 32 ∧ shl32 a 0 = a ∧ (32 ≤ n → shl32 a n = 0#32) ∧
      (shr32 a n).toNat = a.toNat / 2 ^ n ∧ shr32 a 0 = a ∧ (32 ≤ n → shr32 a n = 0#32) ∧
      shl32 0xFFFFFFFF#32 6 = 0xFFFFFFC0#32 ∧ shl32 0x04000000#32 6 = 0x00000000#32 ∧
      shl32 0x22656E6F#32 6 = 0x995B9BC0#32 ∧ shr32 0x80000000#32 3 = 0x10000000#32 ∧
      shr32 0xFFFFFFFF#32 3 = 0x1FFFFFFF#32 ∧ shr32 0x00000007#32 3 = 0#32

/-- R105: bit `i` of `xor32(a, b)` is `a[i] + b[i] mod 2`. -/
def Obligations.Xor32IsBitwise : Prop :=
  ∀ (a b c : Word),
    (∀ i, i < 32 → ((xor32 a b).getLsbD i).toNat = ((a.getLsbD i).toNat + (b.getLsbD i).toNat) % 2) ∧
      xor32 a a = 0#32 ∧ xor32 a 0#32 = a ∧ xor32 a b = xor32 b a ∧ xor32 (xor32 a b) c = xor32 a (xor32 b c) ∧
      xor32 0xFFFF0000#32 0x0F0F0F0F#32 = 0xF0F00F0F#32

/-- R106 to R110: the byte functions, modulo `2^8`. -/
def Obligations.ByteFunctionsWrapAtEightBits : Prop :=
  ∀ (a b : Byte) (n : Nat),
    (add8 a b).toNat = (a.toNat + b.toNat) % 2 ^ 8 ∧
      (sub8 a b).toNat = (a.toNat + 2 ^ 8 - b.toNat) % 2 ^ 8 ∧ (∀ r, add8 r b = a ↔ r = sub8 a b) ∧
      (shl8 a n).toNat = a.toNat * 2 ^ n % 2 ^ 8 ∧ (shr8 a n).toNat = a.toNat / 2 ^ n ∧
      (∀ i, i < 8 → ((xor8 a b).getLsbD i).toNat = ((a.getLsbD i).toNat + (b.getLsbD i).toNat) % 2) ∧
      add8 0xFF#8 0x01#8 = 0x00#8 ∧ add8 0x40#8 0x35#8 = 0x75#8 ∧ sub8 0x00#8 0x01#8 = 0xFF#8 ∧
      sub8 0xBD#8 0x40#8 = 0x7D#8 ∧ shl8 0x68#8 3 = 0x40#8 ∧ shl8 0x74#8 3 = 0xA0#8 ∧ shr8 0x68#8 2 = 0x1A#8 ∧
      shr8 0xFF#8 2 = 0x3F#8 ∧ xor8 0x75#8 0x4F#8 = 0x3A#8

/-- R111: the inverse law at both widths. -/
def Obligations.AddAndSubAreInverse : Prop :=
  (∀ a b : Word, sub32 (add32 a b) b = a ∧ add32 (sub32 a b) b = a) ∧
    ∀ a b : Byte, sub8 (add8 a b) b = a ∧ add8 (sub8 a b) b = a

/-! ### The codec -/

/-- R121: `bytesToWords` by the spec's formula; and, R123, no value on any length not divisible by 4, which the model writes
as `none` (DEDUCED, log 15). -/
def Obligations.BytesToWordsLittleEndian : Prop :=
  (∀ bs : List Byte,
    (bs.length % 4 = 0 →
      ∃ ws, bytesToWords bs = some ws ∧ ws.length = bs.length / 4 ∧
        ∀ g, g < ws.length →
          ws[g]? = some (leWord (bs.getD (4 * g) 0#8) (bs.getD (4 * g + 1) 0#8) (bs.getD (4 * g + 2) 0#8)
            (bs.getD (4 * g + 3) 0#8))) ∧
      (bs.length % 4 ≠ 0 → bytesToWords bs = none)) ∧
    bytesToWords [] = some [] ∧
    bytesToWords [0x7B#8, 0x22#8, 0x70#8, 0x68#8, 0x6F#8, 0x6E#8, 0x65#8, 0x22#8] =
      some [0x6870227B#32, 0x22656E6F#32] ∧
    bytesToWords [0x01#8, 0x00#8, 0x00#8, 0x00#8] = some [0x00000001#32] ∧
    bytesToWords [0x00#8, 0x00#8, 0x00#8, 0x80#8] = some [0x80000000#32]

/-- R122: `wordsToBytes` by the spec's formula: byte `4g + t` is `byte_t(ws[g])`, bits `8t+7 .. 8t`. -/
def Obligations.WordsToBytesLittleEndian : Prop :=
  (∀ ws : List Word,
    (wordsToBytes ws).length = 4 * ws.length ∧
      ∀ g t, g < ws.length → t < 4 →
        (wordsToBytes ws)[4 * g + t]? = some (BitVec.ofNat 8 ((ws.getD g 0#32).toNat / 2 ^ (8 * t)))) ∧
    wordsToBytes [] = [] ∧ wordsToBytes [0x9E3779B9#32] = [0xB9#8, 0x79#8, 0x37#8, 0x9E#8] ∧
    wordsToBytes [0xF6B7AC55#32, 0xFC1B0429#32] = [0x55#8, 0xAC#8, 0xB7#8, 0xF6#8, 0x29#8, 0x04#8, 0x1B#8, 0xFC#8]

/-- R124: the round-trip laws. -/
def Obligations.CodecRoundTrip : Prop :=
  (∀ bs : List Byte, bs.length % 4 = 0 → (bytesToWords bs).map wordsToBytes = some bs) ∧
    ∀ ws : List Word, bytesToWords (wordsToBytes ws) = some ws

/-- R23, R52, R57: after `LDKEY` with 16 bytes, `KB[j]` is the `j`-th byte of the payload, and it is the byte `j mod 4` of
`K[floor(j/4)]`. -/
def Obligations.KeyBytesInSuppliedOrder : Prop :=
  ∀ (pl : Packet) (k : KeyRegs), keyOfPayload pl = some k →
    pl.length = 16 ∧
      ∀ j : Fin 16, pl[j.val]? = some (k.byte j) ∧
        k.byte j = BitVec.ofNat 8 ((k.word ⟨j.val / 4, by omega⟩).toNat / 2 ^ (8 * (j.val % 4)))

/-! ### The block engine -/

/-- R142: the round function, with the shift before the addition. -/
def Obligations.MixIsXorOfThreeAdds : Prop :=
  (∀ x ka kb s : Word,
    mix x ka kb s = ((x <<< 6) + ka) ^^^ (x + s) ^^^ ((x >>> 3) + kb) ∧ mix 0#32 0#32 0#32 s = s) ∧
    mix 0x22656E6F#32 0x76553035#32 0x5A796146#32 0x9E3779B9#32 = 0x91EA2CCE#32

/-- R143, R144, R145: one encrypt round, the accumulator first, half-step B from the already updated `v0`. -/
def Obligations.EncRoundOrder : Prop :=
  (∀ (k : KeyRegs) (v0 v1 sum : Word),
    ∃ v0' v1' sum', encRound k ⟨v0, v1, sum⟩ = ⟨v0', v1', sum'⟩ ∧ sum' = sum + 0x9E3779B9#32 ∧
      v0' = v0 + (((v1 <<< 6) + k.k0) ^^^ (v1 + sum') ^^^ ((v1 >>> 3) + k.k1)) ∧
      v1' = v1 + (((v0' <<< 6) + k.k2) ^^^ (v0' + sum') ^^^ ((v0' >>> 3) + k.k3))) ∧
    encRound .zero ⟨0#32, 0#32, 0#32⟩ = ⟨0x9E3779B9#32, 0xA2767205#32, 0x9E3779B9#32⟩

/-- R147, R148: one decrypt round, `v1` first, then `v0` from the recovered `v1`, the accumulator last. -/
def Obligations.DecRoundOrder : Prop :=
  (∀ (k : KeyRegs) (v0 v1 sum : Word),
    ∃ v0' v1' sum', decRound k ⟨v0, v1, sum⟩ = ⟨v0', v1', sum'⟩ ∧
      v1' = v1 - (((v0 <<< 6) + k.k2) ^^^ (v0 + sum) ^^^ ((v0 >>> 3) + k.k3)) ∧
      v0' = v0 - (((v1' <<< 6) + k.k0) ^^^ (v1' + sum) ^^^ ((v1' >>> 3) + k.k1)) ∧ sum' = sum - 0x9E3779B9#32) ∧
    decRound .zero ⟨0x9E3779B9#32, 0xA2767205#32, 0x9E3779B9#32⟩ = ⟨0#32, 0#32, 0#32⟩

/-- R146, R149: the closed forms are 32 rounds from 0 and from `SUM0`; the accumulator ends at `SUM0` and at 0; both are
bijections for every key. -/
def Obligations.BlockClosedForms : Prop :=
  ∀ k : KeyRegs,
    (∀ v0 v1 : Word,
      blockEncrypt k (v0, v1) =
          (((encRound k)^[32] ⟨v0, v1, 0#32⟩).v0, ((encRound k)^[32] ⟨v0, v1, 0#32⟩).v1) ∧
        ((encRound k)^[32] ⟨v0, v1, 0#32⟩).sum = 0xC6EF3720#32 ∧
        blockDecrypt k (v0, v1) =
          (((decRound k)^[32] ⟨v0, v1, 0xC6EF3720#32⟩).v0, ((decRound k)^[32] ⟨v0, v1, 0xC6EF3720#32⟩).v1) ∧
        ((decRound k)^[32] ⟨v0, v1, 0xC6EF3720#32⟩).sum = 0#32) ∧
      Function.Bijective (blockEncrypt k) ∧ Function.Bijective (blockDecrypt k)

/-- R153: the accumulator after `r` rounds does not depend on the key or the data: `SumAt(r)` for encrypt, `SumAt(32 - r)`
for decrypt, and the table of the 32 values. -/
def Obligations.RoundKeySchedule : Prop :=
  (∀ (k : KeyRegs) (v0 v1 : Word) (r : Nat), r ≤ 32 →
    ((encRound k)^[r] ⟨v0, v1, 0#32⟩).sum = BitVec.ofNat 32 (r * 0x9E3779B9) ∧
      ((decRound k)^[r] ⟨v0, v1, 0xC6EF3720#32⟩).sum = BitVec.ofNat 32 ((32 - r) * 0x9E3779B9)) ∧
    (∀ r, sumAt r = BitVec.ofNat 32 (r * 0x9E3779B9)) ∧ sumAt 0 = 0#32 ∧
    (List.range 32).map (fun r => sumAt (r + 1)) =
      [0x9E3779B9#32, 0x3C6EF372#32, 0xDAA66D2B#32, 0x78DDE6E4#32, 0x1715609D#32, 0xB54CDA56#32, 0x5384540F#32,
        0xF1BBCDC8#32, 0x8FF34781#32, 0x2E2AC13A#32, 0xCC623AF3#32, 0x6A99B4AC#32, 0x08D12E65#32, 0xA708A81E#32,
        0x454021D7#32, 0xE3779B90#32] ++
      [0x81AF1549#32, 0x1FE68F02#32, 0xBE1E08BB#32, 0x5C558274#32, 0xFA8CFC2D#32, 0x98C475E6#32, 0x36FBEF9F#32,
        0xD5336958#32, 0x736AE311#32, 0x11A25CCA#32, 0xAFD9D683#32, 0x4E11503C#32, 0xEC48C9F5#32, 0x8A8043AE#32,
        0x28B7BD67#32, 0xC6EF3720#32]

/-- R154: a decrypt round undoes an encrypt round, and the two block transforms are inverse, for every key. -/
def Obligations.BlockTransformsAreInverse : Prop :=
  ∀ k : KeyRegs,
    (∀ b, decRound k (encRound k b) = b) ∧
      ∀ v, blockDecrypt k (blockEncrypt k v) = v ∧ blockEncrypt k (blockDecrypt k v) = v

/-! ### The tail engine -/

/-- R172, R173: the round constant, by its formula and at each of the eight positions, from the table of shifted pad values
and the four bytes of `K[0]`; nothing else of the key is read. -/
def Obligations.TailConstantByPosition : Prop :=
  ∀ k : KeyRegs,
    (∀ pos : BitVec 3,
      tailC k pos =
        xor8 (add8 (shl8 (padByte pos) 3) (k.byte ⟨pos.toNat % 4, by omega⟩))
          (add8 (shr8 (padByte pos) 2) (k.byte ⟨pos.toNat % 4, by omega⟩))) ∧
    (∀ k1 k2 k3, tailC ⟨0x76553035#32, k1, k2, k3⟩ 0#3 = 0x3A#8) ∧
    let c := fun (a b : Byte) (t : Nat) =>
      (a + BitVec.ofNat 8 (k.k0.toNat / 2 ^ (8 * t))) ^^^ (b + BitVec.ofNat 8 (k.k0.toNat / 2 ^ (8 * t)))
    tailC k 0#3 = c 0x40#8 0x1A#8 0 ∧ tailC k 1#3 = c 0x48#8 0x1A#8 1 ∧ tailC k 2#3 = c 0x18#8 0x18#8 2 ∧
      tailC k 3#3 = c 0x78#8 0x1B#8 3 ∧ tailC k 4#3 = c 0x68#8 0x1B#8 0 ∧ tailC k 5#3 = c 0xA0#8 0x1D#8 1 ∧
      tailC k 6#3 = c 0x28#8 0x19#8 2 ∧ tailC k 7#3 = c 0x08#8 0x18#8 3

/-- R174, R175, R178: 32 additions (subtractions) of the same constant, and each undoes the other. -/
def Obligations.TailTransformsAreInverse : Prop :=
  ∀ (k : KeyRegs) (pos : BitVec 3) (b : Byte),
    tailEncrypt k pos b = (fun s => add8 s (tailC k pos))^[32] b ∧
      tailDecrypt k pos b = (fun s => sub8 s (tailC k pos))^[32] b ∧
      tailDecrypt k pos (tailEncrypt k pos b) = b ∧ tailEncrypt k pos (tailDecrypt k pos b) = b

/-- R179: what 32 equal rounds amount to; at positions 2 and 7 the byte is unchanged for every key. -/
def Obligations.TailMovesByMultiplesOf32 : Prop :=
  ∀ (k : KeyRegs) (pos : BitVec 3) (b : Byte),
    tailEncrypt k pos b = add8 b (BitVec.ofNat 8 (32 * (tailC k pos).toNat % 256)) ∧
      tailDecrypt k pos b = sub8 b (BitVec.ofNat 8 (32 * (tailC k pos).toNat % 256)) ∧
      32 * (tailC k pos).toNat % 256 = 32 * ((tailC k pos).toNat % 8) ∧
      (tailEncrypt k pos b).toNat % 32 = b.toNat % 32 ∧ (tailDecrypt k pos b).toNat % 32 = b.toNat % 32 ∧
      tailC k 2#3 = 0#8 ∧ (tailC k 7#3).toNat % 8 = 0 ∧ tailEncrypt k 2#3 b = b ∧ tailEncrypt k 7#3 b = b ∧
      tailDecrypt k 2#3 b = b ∧ tailDecrypt k 7#3 b = b

/-- R112: the inner terms of both round functions may be computed at unbounded width and reduced once at the end, when the
right shift is applied to a reduced value. -/
def Obligations.WiderIntermediatesAgree : Prop :=
  (∀ x ka kb s : Word,
    mix x ka kb s = BitVec.ofNat 32
      ((x.toNat * 2 ^ 6 + ka.toNat) ^^^ (x.toNat + s.toNat) ^^^ (x.toNat / 2 ^ 3 + kb.toNat))) ∧
    ∀ (k : KeyRegs) (pos : BitVec 3),
      tailC k pos = BitVec.ofNat 8
        (((padByte pos).toNat * 2 ^ 3 + (k.byte ⟨pos.toNat % 4, by omega⟩).toNat) ^^^
          ((padByte pos).toNat / 2 ^ 2 + (k.byte ⟨pos.toNat % 4, by omega⟩).toNat))

/-! ### The commands -/

/-- R221: `STAT` answers the flags byte, changes nothing else, and with a payload answers `BadLength`. -/
def Obligations.StatAnswersTheFlagsByte : Prop :=
  ∀ s : State,
    exec (.stat []) s = .next { s with rsp := [0x00#8, if s.kv then 0x01#8 else 0x00#8], ph := .resp } ∧
      ∀ pl, pl.length ≠ 0 →
        exec (.stat pl) s = .next { s with rsp := [0x04#8, min255 pl.length], ph := .resp }

/-- R130: `LDKEY` with sixteen bytes loads the four little-endian words, sets `KV`, answers `OK`, and changes nothing
else. -/
def Obligations.LdkeyLoadsTheKey : Prop :=
  ∀ (s : State) (a0 a1 a2 a3 b0 b1 b2 b3 c0 c1 c2 c3 d0 d1 d2 d3 : Byte),
    exec (.ldkey [a0, a1, a2, a3, b0, b1, b2, b3, c0, c1, c2, c3, d0, d1, d2, d3]) s =
      .next { s with
        k := ⟨leWord a0 a1 a2 a3, leWord b0 b1 b2 b3, leWord c0 c1 c2 c3, leWord d0 d1 d2 d3⟩
        kv := true
        rsp := [0x00#8]
        ph := .resp }

/-- R131, R232: `LDKEY` with any other length erases the key held before and answers `InvalidKeyLength`. -/
def Obligations.LdkeyRejectsOtherLengths : Prop :=
  ∀ (s : State) (pl : Packet), pl.length ≠ 16 →
    exec (.ldkey pl) s =
      .next { s with
        k := ⟨0#32, 0#32, 0#32, 0#32⟩
        kv := false
        rsp := [0x01#8, min255 pl.length]
        ph := .resp }

/-- R222: `CLRKEY` erases the key and answers `OK`; with a payload it answers `BadLength` and keeps the key. While there is no
key every transform command answers `NoKey`, and the only command after which there is one is an `LDKEY` of 16 bytes. -/
def Obligations.ClrkeyErasesTheKey : Prop :=
  ∀ s : State,
    exec (.clrkey []) s =
        .next { s with k := ⟨0#32, 0#32, 0#32, 0#32⟩, kv := false, rsp := [0x00#8], ph := .resp } ∧
      (∀ pl, pl.length ≠ 0 →
        exec (.clrkey pl) s = .next { s with rsp := [0x04#8, min255 pl.length], ph := .resp }) ∧
      (s.kv = false →
        (∀ i : Instr, i.opcode.needsKey = true → exec i s = .next { s with rsp := [0x05#8, 0x00#8], ph := .resp }) ∧
          ∀ (i : Instr) (t : State), exec i s = .next t → t.kv = true → ∃ pl, i = .ldkey pl ∧ pl.length = 16)

/-- R150: `ENCBLK`. With a key and eight bytes the accept step loads the block registers and goes to `RUN`; then, if
reset is not asserted, `n` steps later `n` rounds are done, up to 32, and after the finish the response is `00` and the block
`BlockEncrypt` gives. Without a key `NoKey`,
else with another length `BadLength`, nothing else changed. -/
def Obligations.EncblkEncryptsTheBlock : Prop :=
  ∀ s : State,
    (∀ b0 b1 b2 b3 b4 b5 b6 b7 : Byte, s.kv = true →
      ∃ t, exec (.encblk [b0, b1, b2, b3, b4, b5, b6, b7]) s = .next t ∧
        t = { s with
          v0 := leWord b0 b1 b2 b3
          v1 := leWord b4 b5 b6 b7
          sum := 0#32
          rnd := 0#6
          op := .encblk
          ph := .run } ∧
        (HostAct.reset ∉ s.todo →
          (∀ n, n ≤ 32 → ∃ w, runSteps n t = .next w ∧ w.ph = .run ∧ w.rnd.toNat = n ∧
            BlockState.mk w.v0 w.v1 w.sum =
              (encRound s.k)^[n] ⟨leWord b0 b1 b2 b3, leWord b4 b5 b6 b7, 0#32⟩) ∧
          ∃ u, runSteps 33 t = .next u ∧ u.ph = .resp ∧ u.k = s.k ∧ u.kv = s.kv ∧ u.delivered = s.delivered ∧
            u.rsp = 0x00#8 ::
              wordsToBytes [(blockEncrypt s.k (leWord b0 b1 b2 b3, leWord b4 b5 b6 b7)).1,
                (blockEncrypt s.k (leWord b0 b1 b2 b3, leWord b4 b5 b6 b7)).2])) ∧
      (∀ pl, s.kv = false → exec (.encblk pl) s = .next { s with rsp := [0x05#8, 0x00#8], ph := .resp }) ∧
      ∀ pl, s.kv = true → pl.length ≠ 8 →
        exec (.encblk pl) s = .next { s with rsp := [0x04#8, min255 pl.length], ph := .resp }

/-- R151: `DECBLK`, as `ENCBLK` with the accumulator starting at `SUM0` and `BlockDecrypt`. -/
def Obligations.DecblkDecryptsTheBlock : Prop :=
  ∀ s : State,
    (∀ b0 b1 b2 b3 b4 b5 b6 b7 : Byte, s.kv = true →
      ∃ t, exec (.decblk [b0, b1, b2, b3, b4, b5, b6, b7]) s = .next t ∧
        t = { s with
          v0 := leWord b0 b1 b2 b3
          v1 := leWord b4 b5 b6 b7
          sum := 0xC6EF3720#32
          rnd := 0#6
          op := .decblk
          ph := .run } ∧
        (HostAct.reset ∉ s.todo →
          (∀ n, n ≤ 32 → ∃ w, runSteps n t = .next w ∧ w.ph = .run ∧ w.rnd.toNat = n ∧
            BlockState.mk w.v0 w.v1 w.sum =
              (decRound s.k)^[n] ⟨leWord b0 b1 b2 b3, leWord b4 b5 b6 b7, 0xC6EF3720#32⟩) ∧
          ∃ u, runSteps 33 t = .next u ∧ u.ph = .resp ∧ u.k = s.k ∧ u.kv = s.kv ∧ u.delivered = s.delivered ∧
            u.rsp = 0x00#8 ::
              wordsToBytes [(blockDecrypt s.k (leWord b0 b1 b2 b3, leWord b4 b5 b6 b7)).1,
                (blockDecrypt s.k (leWord b0 b1 b2 b3, leWord b4 b5 b6 b7)).2])) ∧
      (∀ pl, s.kv = false → exec (.decblk pl) s = .next { s with rsp := [0x05#8, 0x00#8], ph := .resp }) ∧
      ∀ pl, s.kv = true → pl.length ≠ 8 →
        exec (.decblk pl) s = .next { s with rsp := [0x04#8, min255 pl.length], ph := .resp }

/-- R176: `ENCTAIL`. The position is taken modulo 8, the data byte goes to `S`; then, if reset is not
asserted, `n` steps later `n` rounds are done, up to 32, and after the finish the response is `00` and the byte `TailEncrypt`
gives. -/
def Obligations.EnctailEncryptsTheByte : Prop :=
  ∀ s : State,
    (∀ p dat : Byte, s.kv = true →
      ∃ t, exec (.enctail [p, dat]) s = .next t ∧
        t = { s with pos := BitVec.ofNat 3 (p.toNat % 8), sAcc := dat, rnd := 0#6, op := .enctail, ph := .run } ∧
        (HostAct.reset ∉ s.todo →
          (∀ n, n ≤ 32 → ∃ w, runSteps n t = .next w ∧ w.ph = .run ∧ w.rnd.toNat = n ∧
            w.sAcc = (fun x => add8 x (tailC s.k (BitVec.ofNat 3 (p.toNat % 8))))^[n] dat) ∧
          ∃ u, runSteps 33 t = .next u ∧ u.ph = .resp ∧ u.k = s.k ∧ u.kv = s.kv ∧ u.delivered = s.delivered ∧
            u.rsp = [0x00#8, tailEncrypt s.k (BitVec.ofNat 3 (p.toNat % 8)) dat])) ∧
      (∀ pl, s.kv = false → exec (.enctail pl) s = .next { s with rsp := [0x05#8, 0x00#8], ph := .resp }) ∧
      ∀ pl, s.kv = true → pl.length ≠ 2 →
        exec (.enctail pl) s = .next { s with rsp := [0x04#8, min255 pl.length], ph := .resp }

/-- R177: `DECTAIL`, as `ENCTAIL` with `TailDecrypt`. -/
def Obligations.DectailDecryptsTheByte : Prop :=
  ∀ s : State,
    (∀ p dat : Byte, s.kv = true →
      ∃ t, exec (.dectail [p, dat]) s = .next t ∧
        t = { s with pos := BitVec.ofNat 3 (p.toNat % 8), sAcc := dat, rnd := 0#6, op := .dectail, ph := .run } ∧
        (HostAct.reset ∉ s.todo →
          (∀ n, n ≤ 32 → ∃ w, runSteps n t = .next w ∧ w.ph = .run ∧ w.rnd.toNat = n ∧
            w.sAcc = (fun x => sub8 x (tailC s.k (BitVec.ofNat 3 (p.toNat % 8))))^[n] dat) ∧
          ∃ u, runSteps 33 t = .next u ∧ u.ph = .resp ∧ u.k = s.k ∧ u.kv = s.kv ∧ u.delivered = s.delivered ∧
            u.rsp = [0x00#8, tailDecrypt s.k (BitVec.ofNat 3 (p.toNat % 8)) dat])) ∧
      (∀ pl, s.kv = false → exec (.dectail pl) s = .next { s with rsp := [0x05#8, 0x00#8], ph := .resp }) ∧
      ∀ pl, s.kv = true → pl.length ≠ 2 →
        exec (.dectail pl) s = .next { s with rsp := [0x04#8, min255 pl.length], ph := .resp }

/-- The frame of every command's accept step (the access summary of R41, and R220, R241): it always answers a next state;
the host's side and the free-value counter stay; `K`, `KV` change only for `LDKEY` and `CLRKEY`; a system command, `LDKEY`,
and every error leave all transient round registers; a block command leaves `S`, `POS`, a tail command `V0`, `V1`, `SUM`;
a command that goes to `RUN` leaves `RSP`. -/
def Obligations.CommandFrame : Prop :=
  ∀ (i : Instr) (s : State),
    ∃ t, exec i s = .next t ∧ t.todo = s.todo ∧ t.delivered = s.delivered ∧ t.freeCtr = s.freeCtr ∧
      (i.opcode ≠ .ldkey ∧ i.opcode ≠ .clrkey → t.k = s.k ∧ t.kv = s.kv) ∧
      (i.opcode = .clrkey ∧ i.payload ≠ [] → t.k = s.k ∧ t.kv = s.kv) ∧
      (i.opcode = .stat ∨ i.opcode = .ldkey ∨ i.opcode = .clrkey → t.ph = .resp ∧ t.transients = s.transients) ∧
      (i.opcode = .encblk ∨ i.opcode = .decblk → t.sAcc = s.sAcc ∧ t.pos = s.pos) ∧
      (i.opcode = .enctail ∨ i.opcode = .dectail → t.v0 = s.v0 ∧ t.v1 = s.v1 ∧ t.sum = s.sum) ∧
      (t.ph = .resp → t.transients = s.transients) ∧
      (t.ph = .run ∧ t.rsp = s.rsp ∨ t.ph = .resp)

/-- R53, R152, R57: the block buffer is `V0`, `V1` as eight bytes: after the accept of a block command it holds the payload in
the order supplied, and the finish packs it in that same order. -/
def Obligations.BlockBufferInSuppliedOrder : Prop :=
  (∀ (s t : State) (i : Instr), i.opcode = .encblk ∨ i.opcode = .decblk → exec i s = .next t → t.ph = .run →
    i.payload = List.ofFn t.blockByte) ∧
    ∀ s : State, wordsToBytes [s.v0, s.v1] = List.ofFn s.blockByte

/-! ### Decoding, the order of checks, errors -/

/-- A few packets written out byte by byte from R73, R79 decode to the commands they stand for, and the gaps of R84 are
rejected by name. That the ill-sized packets among them decode to commands is the model's choice (log 9). -/
def Obligations.PacketsDecodeAsWritten : Prop :=
  decode [0x00#8] = .ok (.stat []) ∧ decode [0x02#8] = .ok (.clrkey []) ∧
    decode [0x01#8, 0x35#8, 0x30#8] = .ok (.ldkey [0x35#8, 0x30#8]) ∧
    decode [0x10#8, 0x7B#8, 0x22#8, 0x70#8, 0x68#8, 0x6F#8, 0x6E#8, 0x65#8, 0x22#8] =
      .ok (.encblk [0x7B#8, 0x22#8, 0x70#8, 0x68#8, 0x6F#8, 0x6E#8, 0x65#8, 0x22#8]) ∧
    decode [0x11#8, 0x55#8] = .ok (.decblk [0x55#8]) ∧ decode [0x20#8, 0x28#8, 0x7D#8] = .ok (.enctail [0x28#8, 0x7D#8]) ∧
    decode [0x21#8, 0x28#8, 0xBD#8] = .ok (.dectail [0x28#8, 0xBD#8]) ∧
    decode [] = .error .emptyPacket ∧ decode [0x30#8, 0x00#8, 0x7D#8] = .error (.illegalOpcode 0x30#8)

/-- R72, R73, R84, R86: decode and encode agree in both directions, for every command with every payload: a packet
decodes to a command exactly when it is that command's encoding, and it is rejected exactly when it is empty or byte 0 is
none of the seven opcodes; the seven opcodes are the bytes of R73. That the decoder accepts a payload of any length, and leaves
the wrong lengths to the accept step, is the model's choice (log 9). -/
def Obligations.DecodeIsTheInverseOfEncode : Prop :=
  (∀ (p : Packet) (i : Instr), decode p = .ok i ↔ encode i = p) ∧
    (∀ p : Packet, decode p = .error .emptyPacket ↔ p = []) ∧
    (∀ (p : Packet) (b : Byte), decode p = .error (.illegalOpcode b) ↔
      p.head? = some b ∧ b ∉ [0x00#8, 0x01#8, 0x02#8, 0x10#8, 0x11#8, 0x20#8, 0x21#8]) ∧
    ∀ i : Instr, (encode i).head? = some (match i with
      | .stat _ => 0x00#8
      | .ldkey _ => 0x01#8
      | .clrkey _ => 0x02#8
      | .encblk _ => 0x10#8
      | .decblk _ => 0x11#8
      | .enctail _ => 0x20#8
      | .dectail _ => 0x21#8)

/-- A step runs the decoded command (R74): in `IDLE`, with a packet presented that decodes to `i`, the step takes the
packet off the command stream and is `exec i`. Around `exec` the step adds nothing else. The same for a packet placed by
`withFetchWord`, in any state. The host's list and `withFetchWord` are the model's own (logs 1, 2). -/
def Obligations.StepRunsTheDecodedCommand : Prop :=
  (∀ (s : State) (p : Packet) (rest : List HostAct) (i : Instr),
    s.ph = .idle → s.todo = .send p :: rest → decode p = .ok i → step s = exec i { s with todo := rest }) ∧
    ∀ (s : State) (nbits w : Nat) (i : Instr),
      decodeTableWord nbits w = some i → step (s.withFetchWord nbits w) = exec i { s with ph := .idle, rsp := [] }

/-- R78: the decode order, line by line: what the step answers to the packet the host presents in `IDLE`. -/
def Obligations.DecodeOrderOfAccept : Prop :=
  ∀ (s : State) (rest : List HostAct) (p : Packet), s.ph = .idle → s.todo = .send p :: rest →
    (p = [] → step s = .next { s with todo := rest, rsp := [0x06#8, 0x00#8], ph := .resp }) ∧
      ∀ (op : Byte) (pl : Packet), p = op :: pl →
        (op ∉ [0x00#8, 0x01#8, 0x02#8, 0x10#8, 0x11#8, 0x20#8, 0x21#8] →
          step s = .next { s with todo := rest, rsp := [0x06#8, op], ph := .resp }) ∧
        (op = 0x01#8 → pl.length ≠ 16 →
          step s = .next { s with
            todo := rest
            k := ⟨0#32, 0#32, 0#32, 0#32⟩
            kv := false
            rsp := [0x01#8, min255 pl.length]
            ph := .resp }) ∧
        (op ∈ [0x10#8, 0x11#8, 0x20#8, 0x21#8] → s.kv = false →
          step s = .next { s with todo := rest, rsp := [0x05#8, 0x00#8], ph := .resp }) ∧
        ((op = 0x00#8 ∨ op = 0x02#8) ∧ pl.length ≠ 0 ∨
            s.kv = true ∧ (op = 0x10#8 ∨ op = 0x11#8) ∧ pl.length ≠ 8 ∨
            s.kv = true ∧ (op = 0x20#8 ∨ op = 0x21#8) ∧ pl.length ≠ 2 →
          step s = .next { s with todo := rest, rsp := [0x04#8, min255 pl.length], ph := .resp }) ∧
        ((op = 0x00#8 ∨ op = 0x02#8) ∧ pl.length = 0 ∨ op = 0x01#8 ∧ pl.length = 16 ∨
            s.kv = true ∧ (op = 0x10#8 ∨ op = 0x11#8) ∧ pl.length = 8 ∨
            s.kv = true ∧ (op = 0x20#8 ∨ op = 0x21#8) ∧ pl.length = 2 →
          ∃ i t, decode p = .ok i ∧ step s = exec i { s with todo := rest } ∧ step s = .next t ∧
            (t.ph = .run ∨ t.ph = .resp ∧ t.rsp.head? = some 0x00#8))

/-- R240: taking an exception. Whenever the decode order gives an error, the step's next state is the old one with
the packet taken, `RSP` the status and the info byte and `PH = RESP`, and nothing else changed, but for the key a failed
`LDKEY` erases; whenever it gives a command, the step performs that very, well-sized command. -/
def Obligations.ErrorsChangeOnlyTheResponse : Prop :=
  ∀ (s : State) (p : Packet) (rest : List HostAct), s.ph = .idle → s.todo = .send p :: rest →
    (∀ e, verdict s.kv p = .error e → ∃ t, step s = .next t ∧
      t.rsp = [e.status.code, e.info] ∧ t.ph = .resp ∧ t.todo = rest ∧ t.delivered = s.delivered ∧
      t.freeCtr = s.freeCtr ∧ t.transients = s.transients ∧
      ((∃ n, e = .invalidKeyLength n) ∧ t.k = ⟨0#32, 0#32, 0#32, 0#32⟩ ∧ t.kv = false ∨
        (∀ n, e ≠ .invalidKeyLength n) ∧ t.k = s.k ∧ t.kv = s.kv)) ∧
      ∀ i, verdict s.kv p = .ok i → i.wf = true ∧ encode i = p ∧ step s = exec i { s with todo := rest }

/-- R82, R230: the status and info bytes of every error. -/
def Obligations.ErrorPacketBytes : Prop :=
  ∀ (n : Nat) (b : Byte),
    (CmdError.invalidKeyLength n).packet = [0x01#8, BitVec.ofNat 8 (min n 255)] ∧
      (CmdError.badLength n).packet = [0x04#8, BitVec.ofNat 8 (min n 255)] ∧
      CmdError.noKey.packet = [0x05#8, 0x00#8] ∧ (CmdError.illegalCommand b).packet = [0x06#8, b] ∧
      Reject.emptyPacket.toError.packet = [0x06#8, 0x00#8] ∧ (Reject.illegalOpcode b).toError.packet = [0x06#8, b] ∧
      (BitVec.ofNat 8 (min n 255)).toNat = if n ≤ 255 then n else 255

/-! ### The sequencer -/

/-- R75: the round step, for each transform: the working registers take one round, `RND` goes up by one, and nothing else
changes but a `wait` the host uses up, which is the model's choice (log 3). -/
def Obligations.RoundStepDoesOneRound : Prop :=
  ∀ s : State, s.ph = .run → s.rnd.toNat < 32 → (∀ rest, s.todo ≠ .reset :: rest) →
    ∃ t, step s = .next t ∧ t.rnd.toNat = s.rnd.toNat + 1 ∧
      (t.k, t.kv, t.ph, t.op, t.pos, t.rsp, t.delivered, t.freeCtr) =
        (s.k, s.kv, Phase.run, s.op, s.pos, s.rsp, s.delivered, s.freeCtr) ∧
      t.todo = s.passTime.todo ∧
      match s.op with
      | .encblk => BlockState.mk t.v0 t.v1 t.sum = encRound s.k ⟨s.v0, s.v1, s.sum⟩ ∧ t.sAcc = s.sAcc
      | .decblk => BlockState.mk t.v0 t.v1 t.sum = decRound s.k ⟨s.v0, s.v1, s.sum⟩ ∧ t.sAcc = s.sAcc
      | .enctail => t.sAcc = add8 s.sAcc (tailC s.k s.pos) ∧ (t.v0, t.v1, t.sum) = (s.v0, s.v1, s.sum)
      | .dectail => t.sAcc = sub8 s.sAcc (tailC s.k s.pos) ∧ (t.v0, t.v1, t.sum) = (s.v0, s.v1, s.sum)

/-- R76: the finish step packs the result, nine bytes for a block and two for a tail byte, and goes to `RESP`; the session
is unchanged. Nothing is said of the transient registers (R43). That a `wait` of the host is used up meanwhile is the model's
choice (log 3). -/
def Obligations.FinishStepPacksTheResult : Prop :=
  ∀ s : State, s.ph = .run → s.rnd.toNat = 32 → (∀ rest, s.todo ≠ .reset :: rest) →
    ∃ t, step s = .next t ∧ t.ph = .resp ∧ (t.k, t.kv, t.delivered) = (s.k, s.kv, s.delivered) ∧
      t.todo = s.passTime.todo ∧
      t.rsp = match s.op with
        | .encblk | .decblk => 0x00#8 :: wordsToBytes [s.v0, s.v1]
        | .enctail | .dectail => [0x00#8, s.sAcc]

/-- R77: the take step: the host gets `RSP`, then `RSP` is empty and `PH` is `IDLE`, and nothing else changes; until the host
takes (or resets), CORE holds the response. That the machine makes a step while the host does not take is the model's choice
(log 3). -/
def Obligations.TakeStepDeliversTheResponse : Prop :=
  ∀ s : State, s.ph = .resp →
    (∀ rest, s.todo = .take :: rest →
      step s = .next { s with todo := rest, delivered := s.delivered ++ [s.rsp], rsp := [], ph := .idle }) ∧
      ((∀ rest, s.todo ≠ .take :: rest) → (∀ rest, s.todo ≠ .reset :: rest) →
        ∃ t, step s = .next t ∧ t.ph = .resp ∧ t.rsp = s.rsp ∧ t.delivered = s.delivered ∧ t.session = s.session)

/-- R71, R74, R77 (U11, U12): CORE waits. In `IDLE` with no packet presented, and in `RESP` while the host does not take,
a step changes nothing but a `wait` the host uses up; a packet offered in `RESP` is not accepted and not dropped. That a machine
that waits makes a step is the model's choice (log 3). -/
def Obligations.CoreWaitsForTheHost : Prop :=
  ∀ s : State, (∀ rest, s.todo ≠ .reset :: rest) →
    (s.ph = .idle ∧ (∀ p rest, s.todo ≠ .send p :: rest) ∨ s.ph = .resp ∧ (∀ rest, s.todo ≠ .take :: rest)) →
    (∀ rest, s.todo = .wait :: rest → step s = .next { s with todo := rest }) ∧
      ((∀ rest, s.todo ≠ .wait :: rest) → step s = .next s)

/-- R33, R71: where no step is enabled, in `RUN` with `RND > 32` (which no run reaches), the model stops with its named
fault. The fault is the model's choice (log 7); that no step is enabled there is R71. -/
def Obligations.NoStepBeyondRound32 : Prop :=
  ∀ s : State, s.ph = .run → 32 < s.rnd.toNat → (∀ rest, s.todo ≠ .reset :: rest) → step s = .fault .noStepEnabled

/-- R40: every register after reset. -/
def Obligations.ResetValues : Prop :=
  State.reset.k = ⟨0#32, 0#32, 0#32, 0#32⟩ ∧ State.reset.kv = false ∧ State.reset.ph = .idle ∧ State.reset.rsp = [] ∧
    State.reset.rnd = 0#6 ∧ State.reset.op.code = 0#2 ∧ State.reset.v0 = 0#32 ∧ State.reset.v1 = 0#32 ∧
    State.reset.sum = 0#32 ∧ State.reset.sAcc = 0#8 ∧ State.reset.pos = 0#3 ∧ State.reset.ph.code = 0#2

/-- R260, R261, R262: the reset step is enabled in every phase, wins over the phase's own step, puts every register at its
reset value, and delivers no response. -/
def Obligations.ResetWinsInEveryPhase : Prop :=
  ∀ (s : State) (rest : List HostAct), s.todo = .reset :: rest →
    ∃ t, step s = .next t ∧ t.todo = rest ∧ t.delivered = s.delivered ∧
      (t.k, t.kv, t.ph, t.rsp, t.transients) =
        (⟨0#32, 0#32, 0#32, 0#32⟩, false, Phase.idle, [], (0#32, 0#32, 0#32, 0#8, 0#3, 0#6, Op.encblk))

/-- R264, R234 (95_test_vectors part 3, property 7): from any state, reset followed by any transform command, of any
length, is answered `05 00`, and the key did not survive. -/
def Obligations.ResetThenTransformAnswersNoKey : Prop :=
  ∀ (s : State) (i : Instr) (rest : List HostAct), i.opcode.needsKey = true →
    s.todo = .reset :: .send (encode i) :: .take :: rest →
    ∃ t, runSteps 3 s = .next t ∧ t.delivered = s.delivered ++ [[0x05#8, 0x00#8]] ∧ t.ph = .idle ∧ t.rsp = [] ∧
      t.kv = false ∧ t.todo = rest

/-! ### Whole-machine rules -/

/-- R21, R66, R132, R60: the session state changes in a step only if reset is asserted, or if in `IDLE` the packet presented
is an `LDKEY` or a `CLRKEY`; so it cannot change between the accept and the finish of a transform. -/
def Obligations.KeyChangesOnlyByKeyCommands : Prop :=
  ∀ s t : State, step s = .next t → t.session ≠ s.session →
    (∃ rest, s.todo = .reset :: rest) ∨
      s.ph = .idle ∧ ∃ op pl rest, s.todo = .send (op :: pl) :: rest ∧ (op = 0x01#8 ∨ op = 0x02#8 ∧ pl = [])

/-- R29, R63, R77: bytes leave CORE only in a take step, as exactly the packet in `RSP`, one response at a time and in
order. -/
def Obligations.ResponsesLeaveOnlyByTake : Prop :=
  ∀ s t : State, step s = .next t →
    t.delivered = s.delivered ∨
      s.ph = .resp ∧ t.ph = .idle ∧ t.rsp = [] ∧ t.delivered = s.delivered ++ [s.rsp] ∧
        ∃ rest, s.todo = .take :: rest ∧ t.todo = rest

/-- R31, R33, R80, R153, R234: the good state, `State.Inv` of Safety.lean (whose clause that `K` is 0 when `KV` is 0 is
DEDUCED, log 18), is kept by every step. -/
def Obligations.StepKeepsTheGoodState : Prop := ∀ s t : State, s.Inv → step s = .next t → t.Inv

/-- The good state holds after reset. -/
def Obligations.ResetIsAGoodState : Prop := State.reset.Inv

/-- R71, R76, R231: from a good state the machine never stops: for any number of steps, whatever the host does, it answers
a next state, and a good one. That a machine that waits makes a step is the model's choice (log 3). -/
def Obligations.GoodStatesRunForever : Prop := ∀ (s : State) (n : Nat), s.Inv → SafeRun n s

/-- R89, R63, R68, R279: the step-by-step machine does what the atomic reading says. From any `IDLE` state in which the host
presents `p` and then takes, the response and the session are those `answer` computes from the packet and the session alone;
they stand in `RESP` after exactly the number of steps `stepsOf` says and not before; and the next step delivers the one
response. -/
def Obligations.MachineRefinesAtomicReading : Prop :=
  ∀ (s : State) (p : Packet) (rest : List HostAct), s.ph = .idle → s.todo = .send p :: .take :: rest →
    ∃ c r t u, answer s.session p = some (c, r) ∧
      runSteps (stepsOf s.session p) s = .next t ∧ t.ph = .resp ∧ t.rsp = r ∧ t.session = c ∧
      t.delivered = s.delivered ∧
      (∀ n, n < stepsOf s.session p → ∃ w, runSteps n s = .next w ∧ w.ph ≠ .resp ∧ w.delivered = s.delivered) ∧
      runSteps (stepsOf s.session p + 1) s = .next u ∧ u.ph = .idle ∧ u.rsp = [] ∧ u.session = c ∧ u.todo = rest ∧
      u.delivered = s.delivered ++ [r]

/-- R279 (95_test_vectors part 3, property 8), R223: the step counts of the machine, whatever the data and the key. From `IDLE`
with a packet presented and no reset to come, a transform that is performed is in `RESP` after 34 steps and after no smaller
number; every other command and every error is in `RESP` after one step. These are the counts `stepsOf` gives. -/
def Obligations.StepCounts : Prop :=
  ∀ (s : State) (p : Packet) (rest : List HostAct),
    s.ph = .idle → s.todo = .send p :: rest → HostAct.reset ∉ rest →
    (∀ i, verdict s.kv p = .ok i → i.opcode.needsKey = true →
      (∃ t, runSteps 34 s = .next t ∧ t.ph = .resp) ∧ (∀ n, n < 34 → ∃ w, runSteps n s = .next w ∧ w.ph ≠ .resp) ∧
        stepsOf s.session p = 34) ∧
      ((∀ i, verdict s.kv p = .ok i → i.opcode.needsKey = false) →
        (∃ t, step s = .next t ∧ t.ph = .resp) ∧ stepsOf s.session p = 1)

/-- R43, R64, R68: no response depends on what an earlier command left in the transient registers. Two `IDLE` states that
agree in the session, the response buffer and the host, whatever their transient registers and free values, agree in all
that is visible after any number of steps of any host behaviour. That a machine that waits makes a step is the model's choice
(log 3). -/
def Obligations.TransientsNeverShow : Prop :=
  ∀ (s₁ s₂ : State) (n : Nat), s₁.ph = .idle → s₁.visible = s₂.visible →
    ∃ t₁ t₂, runSteps n s₁ = .next t₁ ∧ runSteps n s₂ = .next t₂ ∧ t₁.visible = t₂.visible

/-- R21, R221, R250: the key is write-only. In every phase, whatever the host does: the steps of two states that differ in the
key words alone agree in everything but the key words, `V0`, `V1` and `S`, so in the response and in what is delivered; and
unless the step is a round step they differ in the key words at most. So a key word reaches the host only through the rounds of
a performed transform: to any other packet the atomic reading's response is the same whatever the key. That a machine that waits makes a step is the
model's choice (log 3). -/
def Obligations.KeyIsNotReadBack : Prop :=
  (∀ (s : State) (k' : KeyRegs), (s.ph = .run → s.rnd.toNat ≤ 32) →
    ∃ t t', step s = .next t ∧ step { s with k := k' } = .next t' ∧
      (t'.kv, t'.ph, t'.rsp, t'.todo, t'.delivered) = (t.kv, t.ph, t.rsp, t.todo, t.delivered) ∧
      (t'.op, t'.sum, t'.pos, t'.rnd, t'.freeCtr) = (t.op, t.sum, t.pos, t.rnd, t.freeCtr) ∧
      (s.ph ≠ .run ∨ s.rnd.toNat = 32 ∨ s.todo.head? = some .reset → t' = { t with k := t'.k })) ∧
    ∀ (k k' : KeyRegs) (kv : Bool) (p : Packet), (∀ i, verdict kv p = .ok i → i.opcode.needsKey = false) →
      (answer ⟨k', kv⟩ p).map (·.2) = (answer ⟨k, kv⟩ p).map (·.2)

/-! ### Whole messages -/

/-- R190, R201, R59: the split of a message, fixed by its length: the blocks have 8 bytes each and, with the tail bytes after
them, are the message; a tail has at most 7 bytes; each tail byte carries its absolute position, and modulo 8 that is its
offset in the tail. -/
def Obligations.MessageSplit : Prop :=
  ∀ msg : List Byte,
    alignedLen msg = msg.length / 8 * 8 ∧ tailLen msg = msg.length % 8 ∧ numBlocks msg = msg.length / 8 ∧
      (msgBlocks msg).length = numBlocks msg ∧ (∀ b ∈ msgBlocks msg, b.length = 8) ∧
      (msgBlocks msg).flatten ++ (msgTail msg).map (·.1) = msg ∧ (msgTail msg).length = tailLen msg ∧
      ∀ (j : Nat) (b : Byte) (i : Nat), (msgTail msg)[j]? = some (b, i) →
        i = alignedLen msg + j ∧ msg[i]? = some b ∧ i % 8 = j

/-- R194: `Encrypt` and `Decrypt`, unit by unit: output bytes `8b .. 8b+7` are the block transform of input bytes
`8b .. 8b+7`, and each tail byte is the tail transform of the byte at its own position; no output for a key of another
length. -/
def Obligations.MessageFunctionsUnitByUnit : Prop :=
  ∀ msg key : List Byte,
    (key.length ≠ 16 → encrypt msg key = none ∧ decrypt msg key = none) ∧
      ∀ k, keyOfPayload key = some k →
        ∃ e d, encrypt msg key = some e ∧ decrypt msg key = some d ∧
          (∀ b, b < msg.length / 8 →
            some ((e.drop (8 * b)).take 8) = blockBytes (blockEncrypt k) ((msg.drop (8 * b)).take 8) ∧
              some ((d.drop (8 * b)).take 8) = blockBytes (blockDecrypt k) ((msg.drop (8 * b)).take 8)) ∧
          ∀ (i : Nat) (x : Byte), msg.length / 8 * 8 ≤ i → msg[i]? = some x →
            e[i]? = some (tailEncrypt k (BitVec.ofNat 3 (i % 8)) x) ∧
              d[i]? = some (tailDecrypt k (BitVec.ofNat 3 (i % 8)) x)

/-- R196, R197: for every 16-byte key and every message of any length, encryption and decryption keep the length, and each
undoes the other. -/
def Obligations.MessageRoundTrip : Prop :=
  ∀ msg key : List Byte, key.length = 16 →
    ∃ e d, encrypt msg key = some e ∧ e.length = msg.length ∧ decrypt e key = some msg ∧
      decrypt msg key = some d ∧ d.length = msg.length ∧ encrypt d key = some msg

/-- R198, R155: what follows the aligned prefix does not change the encryption of the prefix. -/
def Obligations.AlignedPrefixIsIndependent : Prop :=
  ∀ (key m₁ m₂ e₁ e₂ : List Byte) (n : Nat), encrypt m₁ key = some e₁ → encrypt m₂ key = some e₂ →
    8 * n ≤ m₁.length → 8 * n ≤ m₂.length → m₁.take (8 * n) = m₂.take (8 * n) → e₁.take (8 * n) = e₂.take (8 * n)

/-- R191, R192, R193, R195, R199, R200: the driver on the machine. From any `IDLE` state, `ENCMSG` (`DECMSG`) with a 16-byte
key returns exactly `Encrypt` (`Decrypt`) of the message after `NB + T + 2` commands, and leaves no key; with any other key it
fails with `InvalidKeyLength` after one command, and leaves no key. The order of the units and the steps of an exchange are the
model's choice (log 14). -/
def Obligations.DriverComputesTheMessageFunctions : Prop :=
  ∀ (key msg : List Byte) (s : State), s.ph = .idle →
    (key.length = 16 →
      ∃ e d t u, encrypt msg key = some e ∧ encMsg key msg s = some (.done e, t) ∧ decrypt msg key = some d ∧
        decMsg key msg s = some (.done d, u) ∧
        t.delivered.length = s.delivered.length + (msg.length / 8 + msg.length % 8 + 2) ∧
        u.delivered.length = s.delivered.length + (msg.length / 8 + msg.length % 8 + 2) ∧
        t.ph = .idle ∧ u.ph = .idle ∧ t.rsp = [] ∧ u.rsp = [] ∧ t.kv = false ∧ u.kv = false ∧ t.k = .zero ∧
        u.k = .zero) ∧
      (key.length ≠ 16 →
        ∃ t, encMsg key msg s = some (.failed [0x01#8, min255 key.length], t) ∧
          decMsg key msg s = some (.failed [0x01#8, min255 key.length], t) ∧
          t.delivered.length = s.delivered.length + 1 ∧ t.ph = .idle ∧ t.kv = false ∧ t.k = .zero)
end

