-- ==== Sys2Proof/Laws/Codec.lean ====
section
/-! SUPPORT. The small lemmas of the codec and of operand assembly (spec/41_word_codec.md R121 to R126,
spec/30_encoding.md R83). -/

namespace Sys2Proof.Machine

@[simp] theorem unpackWord_length (w : Word) : (unpackWord w).length = 4 := rfl

@[simp] theorem wordsToBytes_nil : wordsToBytes [] = [] := rfl

@[simp] theorem wordsToBytes_cons (w : Word) (ws : List Word) :
    wordsToBytes (w :: ws) = unpackWord w ++ wordsToBytes ws := rfl

@[simp] theorem bytesToWords_nil : bytesToWords [] = some [] := rfl

@[simp] theorem bytesToWords_group (b0 b1 b2 b3 : Byte) (bs : List Byte) :
    bytesToWords (b0 :: b1 :: b2 :: b3 :: bs) = (bytesToWords bs).map (packWord b0 b1 b2 b3 :: ·) := rfl

/-- `byte_t(w)` as a quotient (R15). -/
theorem wordByte_eq_div (w : Word) (t : Nat) : wordByte w t = BitVec.ofNat 8 (w.toNat / 2 ^ (8 * t)) := by
  simp [wordByte, BitVec.extractLsb', Nat.shiftRight_eq_div_pow]

/-- The value of a packed word (R55, R121). -/
theorem packWord_toNat (a b c d : Byte) :
    (packWord a b c d).toNat = a.toNat + 2 ^ 8 * b.toNat + 2 ^ 16 * c.toNat + 2 ^ 24 * d.toNat := by
  have := a.isLt
  have := b.isLt
  have := c.isLt
  simp only [packWord, BitVec.toNat_append]
  rw [← Nat.shiftLeft_add_eq_or_of_lt (by omega), ← Nat.shiftLeft_add_eq_or_of_lt (by omega),
    ← Nat.shiftLeft_add_eq_or_of_lt (by omega)]
  simp only [Nat.shiftLeft_eq]
  omega

/-- The bytes of a packed word are the bytes it was packed from. -/
theorem unpackWord_packWord (a b c d : Byte) : unpackWord (packWord a b c d) = [a, b, c, d] := by
  have := a.isLt
  have := b.isLt
  have := c.isLt
  have := d.isLt
  have key : ∀ (t : Nat) (e : Byte),
      (packWord a b c d).toNat / 2 ^ (8 * t) % 2 ^ 8 = e.toNat → wordByte (packWord a b c d) t = e := by
    intro t e h
    rw [wordByte_eq_div]
    exact BitVec.eq_of_toNat_eq (by rw [BitVec.toNat_ofNat, h])
  simp only [unpackWord, List.cons.injEq, and_true]
  refine ⟨key _ _ ?_, key _ _ ?_, key _ _ ?_, key _ _ ?_⟩ <;> rw [packWord_toNat] <;> omega

/-- A word is packed from its own bytes. -/
theorem packWord_wordByte (w : Word) :
    packWord (wordByte w 0) (wordByte w 1) (wordByte w 2) (wordByte w 3) = w := by
  have := w.isLt
  apply BitVec.eq_of_toNat_eq
  simp only [packWord_toNat, wordByte_eq_div, BitVec.toNat_ofNat]
  omega

/-- The key operand of sixteen bytes. -/
theorem keyOfPayload_bytes (a0 a1 a2 a3 b0 b1 b2 b3 c0 c1 c2 c3 d0 d1 d2 d3 : Byte) :
    keyOfPayload [a0, a1, a2, a3, b0, b1, b2, b3, c0, c1, c2, c3, d0, d1, d2, d3] =
      some ⟨packWord a0 a1 a2 a3, packWord b0 b1 b2 b3, packWord c0 c1 c2 c3, packWord d0 d1 d2 d3⟩ := rfl

/-- The block operand of eight bytes. -/
theorem blockOfPayload_bytes (a0 a1 a2 a3 b0 b1 b2 b3 : Byte) :
    blockOfPayload [a0, a1, a2, a3, b0, b1, b2, b3] = some (packWord a0 a1 a2 a3, packWord b0 b1 b2 b3) := rfl

theorem keyOfPayload_of_length_ne {pl : Packet} (h : pl.length ≠ 16) : keyOfPayload pl = none := if_neg h

theorem blockOfPayload_of_length_ne {pl : Packet} (h : pl.length ≠ 8) : blockOfPayload pl = none := if_neg h

theorem tailOfPayload_of_length_ne {pl : Packet} (h : pl.length ≠ 2) : tailOfPayload pl = none := by
  match pl, h with
  | [], _ => rfl
  | [_], _ => rfl
  | [_, _], h => exact absurd rfl h
  | _ :: _ :: _ :: _, _ => rfl

/-- There is a key operand exactly when the payload has 16 bytes. -/
theorem keyOfPayload_isSome_iff (pl : Packet) : (keyOfPayload pl).isSome ↔ pl.length = 16 := by
  constructor
  · intro h
    by_contra hne
    simp [keyOfPayload_of_length_ne hne] at h
  · intro h
    match pl, h with
    | [_, _, _, _, _, _, _, _, _, _, _, _, _, _, _, _], _ => rfl

/-- There is a block operand exactly when the payload has 8 bytes. -/
theorem blockOfPayload_isSome_iff (pl : Packet) : (blockOfPayload pl).isSome ↔ pl.length = 8 := by
  constructor
  · intro h
    by_contra hne
    simp [blockOfPayload_of_length_ne hne] at h
  · intro h
    match pl, h with
    | [_, _, _, _, _, _, _, _], _ => rfl

/-- There are tail operands exactly when the payload has 2 bytes. -/
theorem tailOfPayload_isSome_iff (pl : Packet) : (tailOfPayload pl).isSome ↔ pl.length = 2 := by
  match pl with
  | [] => simp [tailOfPayload]
  | [_] => simp [tailOfPayload]
  | [_, _] => simp [tailOfPayload]
  | _ :: _ :: _ :: _ => simp [tailOfPayload]

/-- The form without operands is there exactly when the payload is empty. -/
theorem noOperands_isSome_iff (pl : Packet) : (noOperands pl).isSome ↔ pl.length = 0 := by
  cases pl <;> simp [noOperands]

end Sys2Proof.Machine
end

