-- ==== Sys2Proof/Laws/Decode.lean ====
section
/-! SUPPORT. The small lemmas of the opcode map, the decoder and the status bytes (spec/30_encoding.md R73, R81, R84). -/

namespace Sys2Proof

@[simp] theorem Opcode.instr_opcode (o : Opcode) (pl : Packet) : (o.instr pl).opcode = o := by cases o <;> rfl

@[simp] theorem Opcode.instr_payload (o : Opcode) (pl : Packet) : (o.instr pl).payload = pl := by cases o <;> rfl

@[simp] theorem Instr.opcode_instr_payload (i : Instr) : i.opcode.instr i.payload = i := by cases i <;> rfl

/-- The opcode map is a map: the byte of an opcode stands for that opcode. -/
@[simp] theorem Opcode.ofByte_byte (o : Opcode) : Opcode.ofByte o.byte = some o := by cases o <;> rfl

/-- No two opcodes share a byte. -/
theorem Opcode.bytes_distinct : (Opcode.all.map Opcode.byte).Nodup := by decide

/-- A byte stands for an opcode only if it is that opcode's byte, on all 8 bits. -/
theorem Opcode.byte_of_ofByte {b : Byte} {o : Opcode} (h : Opcode.ofByte b = some o) : o.byte = b := by
  simpa using List.find?_some h

theorem decode_nil : decode [] = .error .emptyPacket := rfl

/-- What decoding a non-empty packet can give: the one command with that opcode byte, or the named rejection. -/
theorem decode_cons_cases (b : Byte) (pl : Packet) :
    (∃ o : Opcode, o.byte = b ∧ decode (b :: pl) = .ok (o.instr pl)) ∨
      (Opcode.ofByte b = none ∧ decode (b :: pl) = .error (.illegalOpcode b)) := by
  cases h : Opcode.ofByte b with
  | none => exact .inr ⟨rfl, by simp [decode, h]⟩
  | some o => exact .inl ⟨o, Opcode.byte_of_ofByte h, by simp [decode, h]⟩

/-- What line 6 of the decode order says of a packet (R78): it decodes to the command, the payload has the required length,
and a transform has a key. -/
theorem verdict_ok {kv : Bool} {p : Packet} {i : Instr} (h : verdict kv p = .ok i) :
    decode p = .ok i ∧ i.payload.length = i.opcode.payloadLen ∧ (i.opcode.needsKey = true → kv = true) := by
  unfold verdict at h
  split at h
  · cases h
  · rename_i j hj
    split_ifs at h with h1 h2 h3
    cases h
    refine ⟨hj, by simpa using h3, fun hk => ?_⟩
    cases kv
    · exact absurd ⟨hk, rfl⟩ h2
    · rfl

theorem CmdError.packet_length (e : CmdError) : e.packet.length = 2 := rfl

/-- An error response never opens with the `OK` byte. -/
theorem CmdError.status_code_ne_ok (e : CmdError) : e.status.code ≠ Status.ok.code := by cases e <;> simp [status, Status.code]

end Sys2Proof
end

