-- ==== Sys2Proof/Laws/State.lean ====
section
/-! SUPPORT. One lemma per field per named update of State, true by rfl, so that no later proof unfolds a record update.
A transient register after `discardTransients` has no lemma: its value is free (spec/10_state.md R43). -/

namespace Sys2Proof.Machine

section withTodo
variable (s : State) (r : List HostAct)
@[simp] theorem State.withTodo_k : (s.withTodo r).k = s.k := rfl
@[simp] theorem State.withTodo_kv : (s.withTodo r).kv = s.kv := rfl
@[simp] theorem State.withTodo_ph : (s.withTodo r).ph = s.ph := rfl
@[simp] theorem State.withTodo_op : (s.withTodo r).op = s.op := rfl
@[simp] theorem State.withTodo_v0 : (s.withTodo r).v0 = s.v0 := rfl
@[simp] theorem State.withTodo_v1 : (s.withTodo r).v1 = s.v1 := rfl
@[simp] theorem State.withTodo_sum : (s.withTodo r).sum = s.sum := rfl
@[simp] theorem State.withTodo_sAcc : (s.withTodo r).sAcc = s.sAcc := rfl
@[simp] theorem State.withTodo_pos : (s.withTodo r).pos = s.pos := rfl
@[simp] theorem State.withTodo_rnd : (s.withTodo r).rnd = s.rnd := rfl
@[simp] theorem State.withTodo_rsp : (s.withTodo r).rsp = s.rsp := rfl
@[simp] theorem State.withTodo_todo : (s.withTodo r).todo = r := rfl
@[simp] theorem State.withTodo_delivered : (s.withTodo r).delivered = s.delivered := rfl
@[simp] theorem State.withTodo_freeCtr : (s.withTodo r).freeCtr = s.freeCtr := rfl
end withTodo

section respondOk
variable (b : Packet) (s : State)
@[simp] theorem respondOk_k : (respondOk b s).k = s.k := rfl
@[simp] theorem respondOk_kv : (respondOk b s).kv = s.kv := rfl
@[simp] theorem respondOk_ph : (respondOk b s).ph = .resp := rfl
@[simp] theorem respondOk_op : (respondOk b s).op = s.op := rfl
@[simp] theorem respondOk_v0 : (respondOk b s).v0 = s.v0 := rfl
@[simp] theorem respondOk_v1 : (respondOk b s).v1 = s.v1 := rfl
@[simp] theorem respondOk_sum : (respondOk b s).sum = s.sum := rfl
@[simp] theorem respondOk_sAcc : (respondOk b s).sAcc = s.sAcc := rfl
@[simp] theorem respondOk_pos : (respondOk b s).pos = s.pos := rfl
@[simp] theorem respondOk_rnd : (respondOk b s).rnd = s.rnd := rfl
@[simp] theorem respondOk_rsp : (respondOk b s).rsp = Status.ok.code :: b := rfl
@[simp] theorem respondOk_todo : (respondOk b s).todo = s.todo := rfl
@[simp] theorem respondOk_delivered : (respondOk b s).delivered = s.delivered := rfl
@[simp] theorem respondOk_freeCtr : (respondOk b s).freeCtr = s.freeCtr := rfl
end respondOk

section raise
variable (e : CmdError) (s : State)
@[simp] theorem raise_k : (raise e s).k = s.k := rfl
@[simp] theorem raise_kv : (raise e s).kv = s.kv := rfl
@[simp] theorem raise_ph : (raise e s).ph = .resp := rfl
@[simp] theorem raise_op : (raise e s).op = s.op := rfl
@[simp] theorem raise_v0 : (raise e s).v0 = s.v0 := rfl
@[simp] theorem raise_v1 : (raise e s).v1 = s.v1 := rfl
@[simp] theorem raise_sum : (raise e s).sum = s.sum := rfl
@[simp] theorem raise_sAcc : (raise e s).sAcc = s.sAcc := rfl
@[simp] theorem raise_pos : (raise e s).pos = s.pos := rfl
@[simp] theorem raise_rnd : (raise e s).rnd = s.rnd := rfl
@[simp] theorem raise_rsp : (raise e s).rsp = e.packet := rfl
@[simp] theorem raise_todo : (raise e s).todo = s.todo := rfl
@[simp] theorem raise_delivered : (raise e s).delivered = s.delivered := rfl
@[simp] theorem raise_freeCtr : (raise e s).freeCtr = s.freeCtr := rfl
end raise

section takeResponse
variable (s : State)
@[simp] theorem takeResponse_k : (takeResponse s).k = s.k := rfl
@[simp] theorem takeResponse_kv : (takeResponse s).kv = s.kv := rfl
@[simp] theorem takeResponse_ph : (takeResponse s).ph = .idle := rfl
@[simp] theorem takeResponse_op : (takeResponse s).op = s.op := rfl
@[simp] theorem takeResponse_v0 : (takeResponse s).v0 = s.v0 := rfl
@[simp] theorem takeResponse_v1 : (takeResponse s).v1 = s.v1 := rfl
@[simp] theorem takeResponse_sum : (takeResponse s).sum = s.sum := rfl
@[simp] theorem takeResponse_sAcc : (takeResponse s).sAcc = s.sAcc := rfl
@[simp] theorem takeResponse_pos : (takeResponse s).pos = s.pos := rfl
@[simp] theorem takeResponse_rnd : (takeResponse s).rnd = s.rnd := rfl
@[simp] theorem takeResponse_rsp : (takeResponse s).rsp = [] := rfl
@[simp] theorem takeResponse_todo : (takeResponse s).todo = s.todo := rfl
@[simp] theorem takeResponse_delivered : (takeResponse s).delivered = s.delivered ++ [s.rsp] := rfl
@[simp] theorem takeResponse_freeCtr : (takeResponse s).freeCtr = s.freeCtr := rfl
end takeResponse

section loadKey
variable (k : KeyRegs) (s : State)
@[simp] theorem loadKey_k : (loadKey k s).k = k := rfl
@[simp] theorem loadKey_kv : (loadKey k s).kv = true := rfl
@[simp] theorem loadKey_ph : (loadKey k s).ph = s.ph := rfl
@[simp] theorem loadKey_op : (loadKey k s).op = s.op := rfl
@[simp] theorem loadKey_v0 : (loadKey k s).v0 = s.v0 := rfl
@[simp] theorem loadKey_v1 : (loadKey k s).v1 = s.v1 := rfl
@[simp] theorem loadKey_sum : (loadKey k s).sum = s.sum := rfl
@[simp] theorem loadKey_sAcc : (loadKey k s).sAcc = s.sAcc := rfl
@[simp] theorem loadKey_pos : (loadKey k s).pos = s.pos := rfl
@[simp] theorem loadKey_rnd : (loadKey k s).rnd = s.rnd := rfl
@[simp] theorem loadKey_rsp : (loadKey k s).rsp = s.rsp := rfl
@[simp] theorem loadKey_todo : (loadKey k s).todo = s.todo := rfl
@[simp] theorem loadKey_delivered : (loadKey k s).delivered = s.delivered := rfl
@[simp] theorem loadKey_freeCtr : (loadKey k s).freeCtr = s.freeCtr := rfl
end loadKey

section eraseKey
variable (s : State)
@[simp] theorem eraseKey_k : (eraseKey s).k = .zero := rfl
@[simp] theorem eraseKey_kv : (eraseKey s).kv = false := rfl
@[simp] theorem eraseKey_ph : (eraseKey s).ph = s.ph := rfl
@[simp] theorem eraseKey_op : (eraseKey s).op = s.op := rfl
@[simp] theorem eraseKey_v0 : (eraseKey s).v0 = s.v0 := rfl
@[simp] theorem eraseKey_v1 : (eraseKey s).v1 = s.v1 := rfl
@[simp] theorem eraseKey_sum : (eraseKey s).sum = s.sum := rfl
@[simp] theorem eraseKey_sAcc : (eraseKey s).sAcc = s.sAcc := rfl
@[simp] theorem eraseKey_pos : (eraseKey s).pos = s.pos := rfl
@[simp] theorem eraseKey_rnd : (eraseKey s).rnd = s.rnd := rfl
@[simp] theorem eraseKey_rsp : (eraseKey s).rsp = s.rsp := rfl
@[simp] theorem eraseKey_todo : (eraseKey s).todo = s.todo := rfl
@[simp] theorem eraseKey_delivered : (eraseKey s).delivered = s.delivered := rfl
@[simp] theorem eraseKey_freeCtr : (eraseKey s).freeCtr = s.freeCtr := rfl
end eraseKey

section beginBlock
variable (o : Op) (v : Word × Word) (m : Word) (s : State)
@[simp] theorem beginBlock_k : (beginBlock o v m s).k = s.k := rfl
@[simp] theorem beginBlock_kv : (beginBlock o v m s).kv = s.kv := rfl
@[simp] theorem beginBlock_ph : (beginBlock o v m s).ph = .run := rfl
@[simp] theorem beginBlock_op : (beginBlock o v m s).op = o := rfl
@[simp] theorem beginBlock_v0 : (beginBlock o v m s).v0 = v.1 := rfl
@[simp] theorem beginBlock_v1 : (beginBlock o v m s).v1 = v.2 := rfl
@[simp] theorem beginBlock_sum : (beginBlock o v m s).sum = m := rfl
@[simp] theorem beginBlock_sAcc : (beginBlock o v m s).sAcc = s.sAcc := rfl
@[simp] theorem beginBlock_pos : (beginBlock o v m s).pos = s.pos := rfl
@[simp] theorem beginBlock_rnd : (beginBlock o v m s).rnd = 0#6 := rfl
@[simp] theorem beginBlock_rsp : (beginBlock o v m s).rsp = s.rsp := rfl
@[simp] theorem beginBlock_todo : (beginBlock o v m s).todo = s.todo := rfl
@[simp] theorem beginBlock_delivered : (beginBlock o v m s).delivered = s.delivered := rfl
@[simp] theorem beginBlock_freeCtr : (beginBlock o v m s).freeCtr = s.freeCtr := rfl
end beginBlock

section beginTail
variable (o : Op) (a : BitVec 3 × Byte) (s : State)
@[simp] theorem beginTail_k : (beginTail o a s).k = s.k := rfl
@[simp] theorem beginTail_kv : (beginTail o a s).kv = s.kv := rfl
@[simp] theorem beginTail_ph : (beginTail o a s).ph = .run := rfl
@[simp] theorem beginTail_op : (beginTail o a s).op = o := rfl
@[simp] theorem beginTail_v0 : (beginTail o a s).v0 = s.v0 := rfl
@[simp] theorem beginTail_v1 : (beginTail o a s).v1 = s.v1 := rfl
@[simp] theorem beginTail_sum : (beginTail o a s).sum = s.sum := rfl
@[simp] theorem beginTail_sAcc : (beginTail o a s).sAcc = a.2 := rfl
@[simp] theorem beginTail_pos : (beginTail o a s).pos = a.1 := rfl
@[simp] theorem beginTail_rnd : (beginTail o a s).rnd = 0#6 := rfl
@[simp] theorem beginTail_rsp : (beginTail o a s).rsp = s.rsp := rfl
@[simp] theorem beginTail_todo : (beginTail o a s).todo = s.todo := rfl
@[simp] theorem beginTail_delivered : (beginTail o a s).delivered = s.delivered := rfl
@[simp] theorem beginTail_freeCtr : (beginTail o a s).freeCtr = s.freeCtr := rfl
end beginTail

section discardTransients
variable (s : State)
@[simp] theorem discardTransients_k : (discardTransients s).k = s.k := rfl
@[simp] theorem discardTransients_kv : (discardTransients s).kv = s.kv := rfl
@[simp] theorem discardTransients_ph : (discardTransients s).ph = s.ph := rfl
@[simp] theorem discardTransients_rsp : (discardTransients s).rsp = s.rsp := rfl
@[simp] theorem discardTransients_todo : (discardTransients s).todo = s.todo := rfl
@[simp] theorem discardTransients_delivered : (discardTransients s).delivered = s.delivered := rfl
@[simp] theorem discardTransients_freeCtr : (discardTransients s).freeCtr = s.freeCtr + 1 := rfl
end discardTransients

section withBlockState
variable (s : State) (b : BlockState)
@[simp] theorem State.withBlockState_k : (s.withBlockState b).k = s.k := rfl
@[simp] theorem State.withBlockState_kv : (s.withBlockState b).kv = s.kv := rfl
@[simp] theorem State.withBlockState_ph : (s.withBlockState b).ph = s.ph := rfl
@[simp] theorem State.withBlockState_op : (s.withBlockState b).op = s.op := rfl
@[simp] theorem State.withBlockState_v0 : (s.withBlockState b).v0 = b.v0 := rfl
@[simp] theorem State.withBlockState_v1 : (s.withBlockState b).v1 = b.v1 := rfl
@[simp] theorem State.withBlockState_sum : (s.withBlockState b).sum = b.sum := rfl
@[simp] theorem State.withBlockState_sAcc : (s.withBlockState b).sAcc = s.sAcc := rfl
@[simp] theorem State.withBlockState_pos : (s.withBlockState b).pos = s.pos := rfl
@[simp] theorem State.withBlockState_rnd : (s.withBlockState b).rnd = s.rnd := rfl
@[simp] theorem State.withBlockState_rsp : (s.withBlockState b).rsp = s.rsp := rfl
@[simp] theorem State.withBlockState_todo : (s.withBlockState b).todo = s.todo := rfl
@[simp] theorem State.withBlockState_delivered : (s.withBlockState b).delivered = s.delivered := rfl
@[simp] theorem State.withBlockState_freeCtr : (s.withBlockState b).freeCtr = s.freeCtr := rfl
end withBlockState

section resetRegisters
variable (s : State)
@[simp] theorem resetRegisters_k : (resetRegisters s).k = State.reset.k := rfl
@[simp] theorem resetRegisters_kv : (resetRegisters s).kv = State.reset.kv := rfl
@[simp] theorem resetRegisters_ph : (resetRegisters s).ph = State.reset.ph := rfl
@[simp] theorem resetRegisters_op : (resetRegisters s).op = State.reset.op := rfl
@[simp] theorem resetRegisters_v0 : (resetRegisters s).v0 = State.reset.v0 := rfl
@[simp] theorem resetRegisters_v1 : (resetRegisters s).v1 = State.reset.v1 := rfl
@[simp] theorem resetRegisters_sum : (resetRegisters s).sum = State.reset.sum := rfl
@[simp] theorem resetRegisters_sAcc : (resetRegisters s).sAcc = State.reset.sAcc := rfl
@[simp] theorem resetRegisters_pos : (resetRegisters s).pos = State.reset.pos := rfl
@[simp] theorem resetRegisters_rnd : (resetRegisters s).rnd = State.reset.rnd := rfl
@[simp] theorem resetRegisters_rsp : (resetRegisters s).rsp = State.reset.rsp := rfl
@[simp] theorem resetRegisters_todo : (resetRegisters s).todo = s.todo := rfl
@[simp] theorem resetRegisters_delivered : (resetRegisters s).delivered = s.delivered := rfl
@[simp] theorem resetRegisters_freeCtr : (resetRegisters s).freeCtr = s.freeCtr := rfl
end resetRegisters

section passTime
variable (s : State)
@[simp] theorem State.passTime_k : s.passTime.k = s.k := by unfold State.passTime; split <;> rfl
@[simp] theorem State.passTime_kv : s.passTime.kv = s.kv := by unfold State.passTime; split <;> rfl
@[simp] theorem State.passTime_ph : s.passTime.ph = s.ph := by unfold State.passTime; split <;> rfl
@[simp] theorem State.passTime_op : s.passTime.op = s.op := by unfold State.passTime; split <;> rfl
@[simp] theorem State.passTime_v0 : s.passTime.v0 = s.v0 := by unfold State.passTime; split <;> rfl
@[simp] theorem State.passTime_v1 : s.passTime.v1 = s.v1 := by unfold State.passTime; split <;> rfl
@[simp] theorem State.passTime_sum : s.passTime.sum = s.sum := by unfold State.passTime; split <;> rfl
@[simp] theorem State.passTime_sAcc : s.passTime.sAcc = s.sAcc := by unfold State.passTime; split <;> rfl
@[simp] theorem State.passTime_pos : s.passTime.pos = s.pos := by unfold State.passTime; split <;> rfl
@[simp] theorem State.passTime_rnd : s.passTime.rnd = s.rnd := by unfold State.passTime; split <;> rfl
@[simp] theorem State.passTime_rsp : s.passTime.rsp = s.rsp := by unfold State.passTime; split <;> rfl
@[simp] theorem State.passTime_delivered : s.passTime.delivered = s.delivered := by unfold State.passTime; split <;> rfl
@[simp] theorem State.passTime_freeCtr : s.passTime.freeCtr = s.freeCtr := by unfold State.passTime; split <;> rfl
end passTime

section roundStep
variable (s : State)
@[simp] theorem roundOf_k : (roundOf s).k = s.k := by unfold roundOf; split <;> rfl
@[simp] theorem roundStep_k : (roundStep s).k = s.k := by simp [roundStep]
@[simp] theorem roundOf_kv : (roundOf s).kv = s.kv := by unfold roundOf; split <;> rfl
@[simp] theorem roundStep_kv : (roundStep s).kv = s.kv := by simp [roundStep]
@[simp] theorem roundOf_ph : (roundOf s).ph = s.ph := by unfold roundOf; split <;> rfl
@[simp] theorem roundStep_ph : (roundStep s).ph = s.ph := by simp [roundStep]
@[simp] theorem roundOf_op : (roundOf s).op = s.op := by unfold roundOf; split <;> rfl
@[simp] theorem roundStep_op : (roundStep s).op = s.op := by simp [roundStep]
@[simp] theorem roundOf_pos : (roundOf s).pos = s.pos := by unfold roundOf; split <;> rfl
@[simp] theorem roundStep_pos : (roundStep s).pos = s.pos := by simp [roundStep]
@[simp] theorem roundOf_rsp : (roundOf s).rsp = s.rsp := by unfold roundOf; split <;> rfl
@[simp] theorem roundStep_rsp : (roundStep s).rsp = s.rsp := by simp [roundStep]
@[simp] theorem roundOf_todo : (roundOf s).todo = s.todo := by unfold roundOf; split <;> rfl
@[simp] theorem roundStep_todo : (roundStep s).todo = s.todo := by simp [roundStep]
@[simp] theorem roundOf_delivered : (roundOf s).delivered = s.delivered := by unfold roundOf; split <;> rfl
@[simp] theorem roundStep_delivered : (roundStep s).delivered = s.delivered := by simp [roundStep]
@[simp] theorem roundOf_freeCtr : (roundOf s).freeCtr = s.freeCtr := by unfold roundOf; split <;> rfl
@[simp] theorem roundStep_freeCtr : (roundStep s).freeCtr = s.freeCtr := by simp [roundStep]
@[simp] theorem roundOf_rnd : (roundOf s).rnd = s.rnd := by unfold roundOf; split <;> rfl
@[simp] theorem roundStep_rnd : (roundStep s).rnd = s.rnd + 1#6 := by simp [roundStep]
theorem roundStep_v0 : (roundStep s).v0 = (roundOf s).v0 := rfl
theorem roundStep_v1 : (roundStep s).v1 = (roundOf s).v1 := rfl
theorem roundStep_sum : (roundStep s).sum = (roundOf s).sum := rfl
theorem roundStep_sAcc : (roundStep s).sAcc = (roundOf s).sAcc := rfl
end roundStep

section finishStep
variable (s : State)
@[simp] theorem finishStep_k : (finishStep s).k = s.k := rfl
@[simp] theorem finishStep_kv : (finishStep s).kv = s.kv := rfl
@[simp] theorem finishStep_todo : (finishStep s).todo = s.todo := rfl
@[simp] theorem finishStep_delivered : (finishStep s).delivered = s.delivered := rfl
@[simp] theorem finishStep_ph : (finishStep s).ph = .resp := rfl
@[simp] theorem finishStep_rsp : (finishStep s).rsp = Status.ok.code :: resultBody s := rfl
@[simp] theorem finishStep_freeCtr : (finishStep s).freeCtr = s.freeCtr + 1 := rfl
end finishStep

end Sys2Proof.Machine
end

