-- ==== Sys2Proof/Laws/Ops.lean ====
section
/-! SUPPORT. Once for each shared operation and each step: everything it can do. Later proofs cite these and do not
unfold the operation. -/

namespace Sys2Proof.Machine

/-- What the key check can do (R234). -/
theorem requireKey_cases (s t : State) :
    (s.kv = true ∧ requireKey s t = t) ∨ (s.kv = false ∧ requireKey s t = raise .noKey s) := by
  cases h : s.kv <;> simp [requireKey, h]

theorem requireKey_of_key {s : State} (h : s.kv = true) (t : State) : requireKey s t = t := by simp [requireKey, h]

theorem requireKey_of_no_key {s : State} (h : s.kv = false) (t : State) : requireKey s t = raise .noKey s := by
  simp [requireKey, h]

/-- What the operand check can do (R235). -/
theorem requireOperands_cases {α : Type} (o : Option α) (pl : Packet) (s : State) (f : α → State) :
    (∃ a, o = some a ∧ requireOperands o pl s f = f a) ∨
      (o = none ∧ requireOperands o pl s f = raise (.badLength pl.length) s) := by
  cases o <;> simp [requireOperands]

/-- What the reset step can do (R261). -/
theorem resetStep_cases (s : State) :
    (∃ rest, s.todo = .reset :: rest ∧ resetStep s = some (resetRegisters (s.withTodo rest))) ∨
      ((∀ rest, s.todo ≠ .reset :: rest) ∧ resetStep s = none) := by
  unfold resetStep
  split
  · rename_i rest h
    exact .inl ⟨rest, h, rfl⟩
  · rename_i h
    exact .inr ⟨h, rfl⟩

theorem step_of_reset {s : State} {rest : List HostAct} (h : s.todo = .reset :: rest) :
    step s = .next (resetRegisters (s.withTodo rest)) := by
  simp [step, resetStep, h]

theorem step_of_no_reset {s : State} (h : ∀ rest, s.todo ≠ .reset :: rest) : step s = phaseStep s := by
  obtain ⟨rest, h', -⟩ | ⟨-, h'⟩ := resetStep_cases s
  · exact absurd h' (h rest)
  · simp [step, h']

/-- What waiting can do to the host's list: use up a leading `wait`, or nothing. -/
theorem State.passTime_todo_cases (s : State) :
    (∃ rest, s.todo = .wait :: rest ∧ s.passTime = s.withTodo rest) ∨ s.passTime = s := by
  unfold State.passTime
  split
  · rename_i rest h
    exact .inl ⟨rest, h, rfl⟩
  · exact .inr rfl

/-- Time passing does not read the key. -/
theorem State.passTime_withKey (s : State) (k : KeyRegs) :
    ({ s with k := k } : State).passTime = { s.passTime with k := k } := by
  unfold State.passTime
  split <;> simp_all

/-- What phase `IDLE` can do (R71, R74). -/
theorem idleStep_cases (s : State) :
    (∃ p rest, s.todo = .send p :: rest ∧ idleStep s = accept p (s.withTodo rest)) ∨
      ((∀ p rest, s.todo ≠ .send p :: rest) ∧ idleStep s = .next s.passTime) := by
  unfold idleStep
  split
  · rename_i p rest h
    exact .inl ⟨p, rest, h, rfl⟩
  · rename_i h
    exact .inr ⟨h, rfl⟩

/-- What phase `RUN` can do (R75, R76). -/
theorem runStep_cases (s : State) :
    (s.rnd.toNat < 32 ∧ runStep s = .next (roundStep s.passTime)) ∨
      (s.rnd.toNat = 32 ∧ runStep s = .next (finishStep s.passTime)) ∨
      (32 < s.rnd.toNat ∧ runStep s = .fault .noStepEnabled) := by
  have ht : cfg.times = 32 := rfl
  unfold runStep
  rw [ht]
  split
  · exact .inl ⟨‹_›, rfl⟩
  · split
    · exact .inr (.inl ⟨‹_›, rfl⟩)
    · exact .inr (.inr ⟨by omega, rfl⟩)

/-- What phase `RESP` can do (R77). -/
theorem respStep_cases (s : State) :
    (∃ rest, s.todo = .take :: rest ∧ respStep s = .next (takeResponse (s.withTodo rest))) ∨
      ((∀ rest, s.todo ≠ .take :: rest) ∧ respStep s = .next s.passTime) := by
  unfold respStep
  split
  · rename_i rest h
    exact .inl ⟨rest, h, rfl⟩
  · rename_i h
    exact .inr ⟨h, rfl⟩

/-- What the accept step can do (R74). -/
theorem accept_cases (p : Packet) (s : State) :
    (∃ r, decode p = .error r ∧ accept p s = .next (raise r.toError s)) ∨
      (∃ i, decode p = .ok i ∧ accept p s = exec i s) := by
  unfold accept
  split
  · exact .inl ⟨_, ‹_›, rfl⟩
  · exact .inr ⟨_, ‹_›, rfl⟩

/-- `RND` does not wrap before round 32 (R33). -/
theorem rnd_succ {r : BitVec 6} (h : r.toNat < 32) : (r + 1#6).toNat = r.toNat + 1 := by
  simp only [BitVec.toNat_add, BitVec.toNat_ofNat]
  omega

theorem step_of_accept {s : State} {p : Packet} {rest : List HostAct} (hp : s.ph = .idle)
    (h : s.todo = .send p :: rest) : step s = accept p (s.withTodo rest) := by
  rw [step_of_no_reset (by simp [h]), phaseStep, hp]
  simp [idleStep, h]

theorem step_of_round {s : State} (hp : s.ph = .run) (hn : s.rnd.toNat < 32) (hr : ∀ rest, s.todo ≠ .reset :: rest) :
    step s = .next (roundStep s.passTime) := by
  rw [step_of_no_reset hr, phaseStep, hp]
  obtain ⟨-, e⟩ | ⟨h, -⟩ | ⟨h, -⟩ := runStep_cases s
  · exact e
  · omega
  · omega

theorem step_of_finish {s : State} (hp : s.ph = .run) (hn : s.rnd.toNat = 32) (hr : ∀ rest, s.todo ≠ .reset :: rest) :
    step s = .next (finishStep s.passTime) := by
  rw [step_of_no_reset hr, phaseStep, hp]
  obtain ⟨h, -⟩ | ⟨-, e⟩ | ⟨h, -⟩ := runStep_cases s
  · omega
  · exact e
  · omega

theorem step_of_take {s : State} {rest : List HostAct} (hp : s.ph = .resp) (h : s.todo = .take :: rest) :
    step s = .next (takeResponse (s.withTodo rest)) := by
  rw [step_of_no_reset (by simp [h]), phaseStep, hp]
  simp [respStep, h]

/-- Everything a step that answers a next state can be: reset, accept, a waiting step, round, finish, take. -/
theorem step_cases {s t : State} (h : step s = .next t) :
    (∃ rest, s.todo = .reset :: rest ∧ t = resetRegisters (s.withTodo rest)) ∨
      (∃ p rest, s.ph = .idle ∧ s.todo = .send p :: rest ∧ accept p (s.withTodo rest) = .next t) ∨
      (s.ph ≠ .run ∧ t = s.passTime) ∨
      (s.ph = .run ∧ s.rnd.toNat < 32 ∧ t = roundStep s.passTime) ∨
      (s.ph = .run ∧ s.rnd.toNat = 32 ∧ t = finishStep s.passTime) ∨
      (∃ rest, s.ph = .resp ∧ s.todo = .take :: rest ∧ t = takeResponse (s.withTodo rest)) := by
  obtain ⟨rest, e, -⟩ | ⟨hr, -⟩ := resetStep_cases s
  · rw [step_of_reset e] at h
    cases h
    exact .inl ⟨rest, e, rfl⟩
  · rw [step_of_no_reset hr, phaseStep] at h
    cases hp : s.ph <;> rw [hp] at h <;> dsimp only at h
    · obtain ⟨p, rest, e, e'⟩ | ⟨-, e⟩ := idleStep_cases s
      · exact .inr (.inl ⟨p, rest, rfl, e, by rw [← e', h]⟩)
      · rw [e] at h
        cases h
        exact .inr (.inr (.inl ⟨by simp, rfl⟩))
    · obtain ⟨a, e⟩ | ⟨a, e⟩ | ⟨-, e⟩ := runStep_cases s <;> rw [e] at h <;> cases h
      · exact .inr (.inr (.inr (.inl ⟨rfl, a, rfl⟩)))
      · exact .inr (.inr (.inr (.inr (.inl ⟨rfl, a, rfl⟩))))
    · obtain ⟨rest, e', e⟩ | ⟨-, e⟩ := respStep_cases s <;> rw [e] at h <;> cases h
      · exact .inr (.inr (.inr (.inr (.inr ⟨rest, rfl, e', rfl⟩))))
      · exact .inr (.inr (.inl ⟨by simp, rfl⟩))

/-- Everything a command's accept step can be (R78, R240): an error, with the key erased first for `LDKEY` alone; the flags;
a key loaded; a key erased; a transform begun, which takes a key. -/
theorem exec_cases (i : Instr) (s : State) :
    ∃ t, exec i s = .next t ∧
      ((∃ e, (∀ n, e ≠ .invalidKeyLength n) ∧ i.opcode ≠ .ldkey ∧ t = raise e s) ∨
        (∃ pl, i = .ldkey pl ∧ keyOfPayload pl = none ∧ t = raise (.invalidKeyLength pl.length) (eraseKey s)) ∨
        (∃ pl k, i = .ldkey pl ∧ keyOfPayload pl = some k ∧ t = respondOk [] (loadKey k s)) ∨
        (i = .stat [] ∧ t = respondOk [statFlags s.kv] s) ∨
        (i = .clrkey [] ∧ t = respondOk [] (eraseKey s)) ∨
        (∃ pl v, i = .encblk pl ∧ s.kv = true ∧ blockOfPayload pl = some v ∧ t = beginBlock .encblk v 0#32 s) ∨
        (∃ pl v, i = .decblk pl ∧ s.kv = true ∧ blockOfPayload pl = some v ∧ t = beginBlock .decblk v cfg.sum0 s) ∨
        (∃ pl a, i = .enctail pl ∧ s.kv = true ∧ tailOfPayload pl = some a ∧ t = beginTail .enctail a s) ∨
        (∃ pl a, i = .dectail pl ∧ s.kv = true ∧ tailOfPayload pl = some a ∧ t = beginTail .dectail a s)) := by
  have err (e : CmdError) (he : ∀ n, e ≠ .invalidKeyLength n) (hi : i.opcode ≠ .ldkey) :
      ∃ e', (∀ n, e' ≠ .invalidKeyLength n) ∧ i.opcode ≠ .ldkey ∧ raise e s = raise e' s := ⟨e, he, hi, rfl⟩
  cases i with
  | stat pl =>
    cases pl with
    | nil => exact ⟨_, rfl, .inr (.inr (.inr (.inl ⟨rfl, rfl⟩)))⟩
    | cons b pl => exact ⟨_, rfl, .inl (err _ (by simp) (by simp [Instr.opcode]))⟩
  | clrkey pl =>
    cases pl with
    | nil => exact ⟨_, rfl, .inr (.inr (.inr (.inr (.inl ⟨rfl, rfl⟩))))⟩
    | cons b pl => exact ⟨_, rfl, .inl (err _ (by simp) (by simp [Instr.opcode]))⟩
  | ldkey pl =>
    cases h : keyOfPayload pl with
    | none => exact ⟨_, by simp only [exec, execLdkey, h], .inr (.inl ⟨pl, rfl, h, rfl⟩)⟩
    | some k => exact ⟨_, by simp only [exec, execLdkey, h], .inr (.inr (.inl ⟨pl, k, rfl, h, rfl⟩))⟩
  | encblk pl =>
    refine ⟨_, rfl, ?_⟩
    cases hk : s.kv with
    | false =>
      rw [requireKey_of_no_key hk]
      exact .inl (err _ (by simp) (by simp [Instr.opcode]))
    | true =>
      rw [requireKey_of_key hk]
      obtain ⟨v, h, e⟩ | ⟨-, e⟩ :=
        requireOperands_cases (blockOfPayload pl) pl s (fun v => beginBlock .encblk v 0#32 s) <;> rw [e]
      · exact .inr (.inr (.inr (.inr (.inr (.inl ⟨pl, v, rfl, rfl, h, rfl⟩)))))
      · exact .inl (err _ (by simp) (by simp [Instr.opcode]))
  | decblk pl =>
    refine ⟨_, rfl, ?_⟩
    cases hk : s.kv with
    | false =>
      rw [requireKey_of_no_key hk]
      exact .inl (err _ (by simp) (by simp [Instr.opcode]))
    | true =>
      rw [requireKey_of_key hk]
      obtain ⟨v, h, e⟩ | ⟨-, e⟩ :=
        requireOperands_cases (blockOfPayload pl) pl s (fun v => beginBlock .decblk v cfg.sum0 s) <;> rw [e]
      · exact .inr (.inr (.inr (.inr (.inr (.inr (.inl ⟨pl, v, rfl, rfl, h, rfl⟩))))))
      · exact .inl (err _ (by simp) (by simp [Instr.opcode]))
  | enctail pl =>
    refine ⟨_, rfl, ?_⟩
    cases hk : s.kv with
    | false =>
      rw [requireKey_of_no_key hk]
      exact .inl (err _ (by simp) (by simp [Instr.opcode]))
    | true =>
      rw [requireKey_of_key hk]
      obtain ⟨a, h, e⟩ | ⟨-, e⟩ :=
        requireOperands_cases (tailOfPayload pl) pl s (fun a => beginTail .enctail a s) <;> rw [e]
      · exact .inr (.inr (.inr (.inr (.inr (.inr (.inr (.inl ⟨pl, a, rfl, rfl, h, rfl⟩)))))))
      · exact .inl (err _ (by simp) (by simp [Instr.opcode]))
  | dectail pl =>
    refine ⟨_, rfl, ?_⟩
    cases hk : s.kv with
    | false =>
      rw [requireKey_of_no_key hk]
      exact .inl (err _ (by simp) (by simp [Instr.opcode]))
    | true =>
      rw [requireKey_of_key hk]
      obtain ⟨a, h, e⟩ | ⟨-, e⟩ :=
        requireOperands_cases (tailOfPayload pl) pl s (fun a => beginTail .dectail a s) <;> rw [e]
      · exact .inr (.inr (.inr (.inr (.inr (.inr (.inr (.inr ⟨pl, a, rfl, rfl, h, rfl⟩)))))))
      · exact .inl (err _ (by simp) (by simp [Instr.opcode]))

end Sys2Proof.Machine
end

