-- ==== Sys2Proof/Laws/PerInstr.lean ====
section
/-! SUPPORT. The family `DecodeOfEncode`: one lemma per constructor of Instr (spec/30_encoding.md R72, R86). -/

namespace Sys2Proof.Laws.DecodeOfEncode

/-- The decoder reads back the very command, its payload included, from the encoder's packet, whose length is one more
than the payload's. -/
def Statement (i : Instr) : Prop := decode (encode i) = .ok i ∧ (encode i).length = i.payload.length + 1

theorem stat (pl : Packet) : Statement (.stat pl) := ⟨rfl, rfl⟩
theorem ldkey (pl : Packet) : Statement (.ldkey pl) := ⟨rfl, rfl⟩
theorem clrkey (pl : Packet) : Statement (.clrkey pl) := ⟨rfl, rfl⟩
theorem encblk (pl : Packet) : Statement (.encblk pl) := ⟨rfl, rfl⟩
theorem decblk (pl : Packet) : Statement (.decblk pl) := ⟨rfl, rfl⟩
theorem enctail (pl : Packet) : Statement (.enctail pl) := ⟨rfl, rfl⟩
theorem dectail (pl : Packet) : Statement (.dectail pl) := ⟨rfl, rfl⟩

end Sys2Proof.Laws.DecodeOfEncode
end

