-- ==== Sys2Proof/Laws/Run.lean ====
section
/-! SUPPORT. Runs of several steps, and runs of rounds. -/

namespace Sys2Proof.Machine

@[simp] theorem runSteps_zero (s : State) : runSteps 0 s = .next s := rfl

theorem runSteps_succ_of_next {s t : State} (n : Nat) (h : step s = .next t) : runSteps (n + 1) s = runSteps n t := by
  simp [runSteps, h]

/-- A run of `m + n` steps is a run of `m` steps and then one of `n`. -/
theorem runSteps_add_of_next {s t : State} (m n : Nat) (h : runSteps m s = .next t) :
    runSteps (m + n) s = runSteps n t := by
  induction m generalizing s with
  | zero =>
    cases h
    simp
  | succ m ih =>
    rw [Nat.succ_add]
    simp only [runSteps] at h ⊢
    split at h
    · exact ih h
    · cases h
    · cases h

/-- The host's run is the driver's run. -/
theorem core_run_eq_runSteps (n : Nat) (s : State) : Host.Core.run Sys2Proof.core n s = runSteps n s := by
  induction n generalizing s with
  | zero => rfl
  | succ n ih =>
    cases hs : step s with
    | next t =>
      have hc : Sys2Proof.core.step s = .next t := hs
      simp only [Host.Core.run, hc, runSteps, hs]
      exact ih t
    | fault f =>
      have hc : Sys2Proof.core.step s = .fault f := hs
      simp only [Host.Core.run, hc, runSteps, hs]
      rfl
    | refused r =>
      have hc : Sys2Proof.core.step s = .refused r := hs
      simp only [Host.Core.run, hc, runSteps, hs]
      rfl

@[simp] theorem rounds_zero {α : Type} (f : α → α) (a : α) : rounds f 0 a = a := rfl

theorem rounds_succ {α : Type} (f : α → α) (n : Nat) (a : α) : rounds f (n + 1) a = f (rounds f n a) := rfl

/-- The first round may as well be taken off at the start. -/
theorem rounds_succ_start {α : Type} (f : α → α) (n : Nat) (a : α) : rounds f (n + 1) a = rounds f n (f a) := by
  induction n with
  | zero => rfl
  | succ n ih => rw [rounds_succ, ih, rounds_succ]

theorem rounds_eq_iterate {α : Type} (f : α → α) (n : Nat) (a : α) : rounds f n a = f^[n] a := by
  induction n with
  | zero => rfl
  | succ n ih => rw [rounds_succ, ih, Function.iterate_succ_apply']

/-- The host does not reset while a transform runs: it never does, or what it does next is to take, and so it waits. -/
def State.Undisturbed (s : State) : Prop := HostAct.reset ∉ s.todo ∨ ∃ rest, s.todo = .take :: rest

theorem State.Undisturbed.no_reset {s : State} (h : s.Undisturbed) : ∀ rest, s.todo ≠ .reset :: rest := by
  intro rest e
  obtain h | ⟨l, h⟩ := h
  · exact h (by simp [e])
  · rw [h] at e
    cases e

theorem State.Undisturbed.passTime {s : State} (h : s.Undisturbed) : s.passTime.Undisturbed := by
  obtain ⟨rest, e, e'⟩ | e := s.passTime_todo_cases
  · obtain h | ⟨l, h⟩ := h
    · exact .inl fun hm => h (by rw [e' ] at hm; simp only [State.withTodo_todo] at hm; simp [e, hm])
    · rw [h] at e
      cases e
  · rwa [e]

/-- A host that takes next still takes next after a step goes by. -/
theorem State.passTime_todo_take {s : State} {l : List HostAct} (h : s.todo = .take :: l) :
    s.passTime.todo = .take :: l := by
  simp [State.passTime, h]

/-- What `n` rounds of a running transform do, as long as there are `n` left (R75). -/
theorem runSteps_rounds (n : Nat) (s : State) (hp : s.ph = .run) (hu : s.Undisturbed) (hn : s.rnd.toNat + n ≤ 32) :
    ∃ t, runSteps n s = .next t ∧ t.ph = .run ∧ t.rnd.toNat = s.rnd.toNat + n ∧
      (t.k, t.kv, t.op, t.pos, t.rsp, t.delivered) = (s.k, s.kv, s.op, s.pos, s.rsp, s.delivered) ∧ t.Undisturbed ∧
      (∀ l, s.todo = .take :: l → t.todo = .take :: l) ∧
      (s.op = .encblk → t.blockState = rounds (encRound s.k) n s.blockState) ∧
      (s.op = .decblk → t.blockState = rounds (decRound s.k) n s.blockState) ∧
      (s.op = .enctail → t.sAcc = rounds (encTailRound s.k s.pos) n s.sAcc) ∧
      (s.op = .dectail → t.sAcc = rounds (decTailRound s.k s.pos) n s.sAcc) := by
  induction n generalizing s with
  | zero => exact ⟨s, rfl, hp, rfl, rfl, hu, by simp, by simp, by simp, by simp, by simp⟩
  | succ n ih =>
    have hs := step_of_round hp (by omega) hu.no_reset
    have h1 : (roundStep s.passTime).rnd.toNat = s.rnd.toNat + 1 := by
      rw [roundStep_rnd, State.passTime_rnd]
      exact rnd_succ (by omega)
    obtain ⟨t, e, a1, a2, a3, a4, a5, a6, a7, a8, a9⟩ := ih (roundStep s.passTime) (by simp [hp])
      (by simpa [State.Undisturbed] using hu.passTime) (by omega)
    refine ⟨t, by rw [runSteps_succ_of_next n hs, e], a1, by omega, by simpa using a3, a4, ?_, ?_, ?_, ?_, ?_⟩
    · intro l hl
      exact a5 l (by simpa using State.passTime_todo_take hl)
    · intro ho
      rw [a6 (by simp [ho]), rounds_succ_start]
      simp [roundStep, roundOf, ho, State.blockState, State.withBlockState]
    · intro ho
      rw [a7 (by simp [ho]), rounds_succ_start]
      simp [roundStep, roundOf, ho, State.blockState, State.withBlockState]
    · intro ho
      rw [a8 (by simp [ho]), rounds_succ_start]
      simp [roundStep, roundOf, ho]
    · intro ho
      rw [a9 (by simp [ho]), rounds_succ_start]
      simp [roundStep, roundOf, ho]

end Sys2Proof.Machine
end

