-- ==== Sys2Proof/Tests/Slice0.lean ====
section
/-! SUPPORT. The model's own tests. Every expected result is the spec's: an example of a rule, a row of
spec/95_test_vectors.md, or hand calculation from the encoding tables of spec/30_encoding.md. Last, for every statement with
hypotheses, a witness that meets them. -/

namespace Sys2Proof.Tests

open Sys2Proof Sys2Proof.Machine

/-- A byte string from numbers. -/
def b (l : List Nat) : Packet := l.map (BitVec.ofNat 8)

/-- `n` bytes of 0. -/
def zeros (n : Nat) : Packet := List.replicate n 0x00#8

/-- The bytes of key A of spec/95_test_vectors.md section 2.3, "50UvFayZ2w5u3O9B". -/
def keyABytes : Packet :=
  b [0x35, 0x30, 0x55, 0x76, 0x46, 0x61, 0x79, 0x5A, 0x32, 0x77, 0x35, 0x75, 0x33, 0x4F, 0x39, 0x42]

/-- The words of key A. -/
def keyA : KeyRegs := ⟨0x76553035#32, 0x5A796146#32, 0x75357732#32, 0x42394F33#32⟩

/-- The words of key Q. -/
def keyQ : KeyRegs := ⟨0x03020100#32, 0x07060504#32, 0x0B0A0908#32, 0x0F0E0D0C#32⟩

/-- The words of key F. -/
def keyF : KeyRegs := ⟨0xFFFFFFFF#32, 0xFFFFFFFF#32, 0xFFFFFFFF#32, 0xFFFFFFFF#32⟩

/-- `IDLE`, no key, and what the host does. -/
def bare (todo : List HostAct) : State := { State.reset with todo := todo }

/-- `IDLE`, a key, and what the host does. -/
def keyed (k : KeyRegs) (todo : List HostAct) : State := { bare todo with k := k, kv := true }

/-- `RUN`: the transform `op` with key A after `rnd` rounds. -/
def running (op : Op) (rnd : BitVec 6) (todo : List HostAct) : State :=
  { keyed keyA todo with ph := .run, op := op, rnd := rnd }

/-- `RESP`: a response waiting to be taken. -/
def responding (rsp : Packet) (todo : List HostAct) : State := { bare todo with ph := .resp, rsp := rsp }

/-- The step answers a next state that passes the check. -/
def nextIs (o : Host.Outcome State Fault Refusal) (check : State → Bool) : Bool :=
  match o with
  | .next t => check t
  | .fault _ => false
  | .refused _ => false

/-- The step on the packet `p` from `s` ends in `RESP` with this response, and with this key. -/
def answers (s : State) (p : List Nat) (response : List Nat) (k : KeyRegs) (kv : Bool) : Bool :=
  nextIs (step (s.withTodo [.send (b p)])) fun t =>
    t.rsp = b response ∧ t.ph = .resp ∧ t.k = k ∧ t.kv = kv ∧ t.todo = []

/-! ### Well-formed commands: an ill-formed term for each check (R73) -/

theorem test_wf_stat : (Instr.stat []).wf = true ∧ (Instr.stat (zeros 1)).wf = false := by decide
theorem test_wf_ldkey : (Instr.ldkey keyABytes).wf = true ∧ (Instr.ldkey (zeros 15)).wf = false ∧
    (Instr.ldkey (zeros 17)).wf = false := by decide
theorem test_wf_clrkey : (Instr.clrkey []).wf = true ∧ (Instr.clrkey (zeros 1)).wf = false := by decide
theorem test_wf_encblk : (Instr.encblk (zeros 8)).wf = true ∧ (Instr.encblk (zeros 7)).wf = false := by decide
theorem test_wf_decblk : (Instr.decblk (zeros 8)).wf = true ∧ (Instr.decblk (zeros 9)).wf = false := by decide
theorem test_wf_enctail : (Instr.enctail (zeros 2)).wf = true ∧ (Instr.enctail (zeros 1)).wf = false := by decide
theorem test_wf_dectail : (Instr.dectail (zeros 2)).wf = true ∧ (Instr.dectail (zeros 3)).wf = false := by decide

/-! ### Decoding: words written out bit by bit from R73 and R79 -/

theorem test_decode_stat : decode [0b00000000#8] = .ok (.stat []) := by rfl
theorem test_decode_ldkey : decode (0b00000001#8 :: keyABytes) = .ok (.ldkey keyABytes) := by rfl
theorem test_decode_clrkey : decode [0b00000010#8] = .ok (.clrkey []) := by rfl
theorem test_decode_encblk : decode [0b00010000#8, 0b01111011#8, 0b00100010#8, 0b01110000#8, 0b01101000#8, 0b01101111#8,
    0b01101110#8, 0b01100101#8, 0b00100010#8] = .ok (.encblk (b [0x7B, 0x22, 0x70, 0x68, 0x6F, 0x6E, 0x65, 0x22])) := by
  rfl
theorem test_decode_decblk : decode [0b00010001#8, 0b01010101#8, 0b10101100#8, 0b10110111#8, 0b11110110#8, 0b00101001#8,
    0b00000100#8, 0b00011011#8, 0b11111100#8] = .ok (.decblk (b [0x55, 0xAC, 0xB7, 0xF6, 0x29, 0x04, 0x1B, 0xFC])) := by
  rfl
theorem test_decode_enctail : decode [0b00100000#8, 0b00101000#8, 0b01111101#8] = .ok (.enctail [0x28#8, 0x7D#8]) := by
  rfl
theorem test_decode_dectail : decode [0b00100001#8, 0b00101000#8, 0b10111101#8] = .ok (.dectail [0x28#8, 0xBD#8]) := by
  rfl

/-- The operands of the formats stand in the payload in the order of R79, and reach the registers of R83. -/
theorem test_operands : keyOfPayload keyABytes = some keyA ∧
    blockOfPayload (b [0, 1, 2, 3, 4, 5, 6, 7]) = some (0x03020100#32, 0x07060504#32) ∧
    tailOfPayload (b [0xFB, 0x41]) = some (3#3, 0x41#8) := by decide

/-- The empty packet and the edges of every illegal range are rejected by name (R84). -/
theorem test_decode_rejects : decode [] = .error .emptyPacket ∧ decode (b [0x03]) = .error (.illegalOpcode 0x03#8) ∧
    decode (b [0x0F]) = .error (.illegalOpcode 0x0F#8) ∧ decode (b [0x12, 0]) = .error (.illegalOpcode 0x12#8) ∧
    decode (b [0x1F]) = .error (.illegalOpcode 0x1F#8) ∧ decode (b [0x22]) = .error (.illegalOpcode 0x22#8) ∧
    decode (b [0x30, 0x00, 0x7D]) = .error (.illegalOpcode 0x30#8) ∧
    decode (b [0xFF]) = .error (.illegalOpcode 0xFF#8) := ⟨rfl, rfl, rfl, rfl, rfl, rfl, rfl, rfl⟩

/-- Exactly 249 bytes are illegal opcodes (R73). -/
theorem test_illegal_opcodes_count :
    ((List.range 256).filter fun n => (Opcode.ofByte (BitVec.ofNat 8 n)).isNone).length = 249 := by decide +kernel

/-- The opcode table's rows, by their numbers: operand bytes are zeros. -/
theorem test_table_words : decodeTableWord 8 0x00 = some (.stat []) ∧ decodeTableWord 8 0x01 = some (.ldkey (zeros 16)) ∧
    decodeTableWord 8 0x02 = some (.clrkey []) ∧ decodeTableWord 8 0x10 = some (.encblk (zeros 8)) ∧
    decodeTableWord 8 0x11 = some (.decblk (zeros 8)) ∧ decodeTableWord 8 0x20 = some (.enctail (zeros 2)) ∧
    decodeTableWord 8 0x21 = some (.dectail (zeros 2)) ∧ decodeTableWord 8 0x12 = none ∧
    decodeTableWord 24 0x7D2820 = some (.enctail [0x28#8, 0x7D#8]) := by decide

/-! ### Arithmetic, codec, engines (spec/95_test_vectors.md 2.1 to 2.4) -/

theorem test_word_arithmetic : add32 0x80000000#32 0x80000000#32 = 0#32 ∧
    add32 0x995B9BC0#32 0x76553035#32 = 0x0FB0CBF5#32 ∧ sub32 0xC6EF3720#32 0x9E3779B9#32 = 0x28B7BD67#32 ∧
    shl32 0x6870227B#32 6 = 0x1C089EC0#32 ∧ shr32 0x6870227B#32 3 = 0x0D0E044F#32 ∧
    xor32 0xCF2C23DD#32 0x5EC60F13#32 = 0x91EA2CCE#32 := by decide

theorem test_byte_arithmetic : add8 0x80#8 0x80#8 = 0#8 ∧ sub8 0xBD#8 0x3A#8 = 0x83#8 ∧ shl8 0x74#8 3 = 0xA0#8 ∧
    shr8 0x61#8 2 = 0x18#8 ∧ xor8 0x75#8 0x4F#8 = 0x3A#8 := by decide

theorem test_codec : bytesToWords (b [0, 0, 0, 0x80, 0, 0, 0, 0x80]) = some [0x80000000#32, 0x80000000#32] ∧
    bytesToWords (b [1, 2, 3]) = none ∧ bytesToWords (b [1, 2, 3, 4, 5]) = none ∧
    wordsToBytes [0x00000001#32, 0x80000000#32] = b [1, 0, 0, 0, 0, 0, 0, 0x80] := by decide

/-- The block buffer and the key store as bytes (R50, R52, R53). -/
theorem test_byte_views :
    (List.range 8).map (fun o => ({ State.reset with v0 := 0x03020100#32, v1 := 0x07060504#32 } : State).blockByte
      (Fin.ofNat 8 o)) = b [0, 1, 2, 3, 4, 5, 6, 7] ∧
    (List.range 16).map (fun j => keyA.byte (Fin.ofNat 16 j)) = keyABytes := by decide +kernel

theorem test_mix : mix 0xFA5A4F49#32 0x75357732#32 0x42394F33#32 0x9E3779B9#32 = 0xF2DC196C#32 := by decide

/-- Rounds 1 and 2 of the key A trace, and its last round undone (2.3). -/
theorem test_block_rounds :
    encRound keyA ⟨0x6870227B#32, 0x22656E6F#32, 0#32⟩ = ⟨0xFA5A4F49#32, 0x154187DB#32, 0x9E3779B9#32⟩ ∧
      encRound keyA ⟨0xFA5A4F49#32, 0x154187DB#32, 0x9E3779B9#32⟩ = ⟨0xC4811F42#32, 0xE485ADF8#32, 0x3C6EF372#32⟩ ∧
      decRound keyA ⟨0xF6B7AC55#32, 0xFC1B0429#32, 0xC6EF3720#32⟩ = ⟨0xC7C0F42C#32, 0xFC84D86F#32, 0x28B7BD67#32⟩ := by
  decide

theorem test_blockEncrypt_keyA :
    blockEncrypt keyA (0x6870227B#32, 0x22656E6F#32) = (0xF6B7AC55#32, 0xFC1B0429#32) := by decide +kernel
theorem test_blockDecrypt_keyA :
    blockDecrypt keyA (0xF6B7AC55#32, 0xFC1B0429#32) = (0x6870227B#32, 0x22656E6F#32) := by decide +kernel
theorem test_blockEncrypt_keyQ :
    blockBytes (blockEncrypt keyQ) (b [0, 1, 2, 3, 4, 5, 6, 7]) =
      some (b [0x66, 0xAA, 0xC4, 0x92, 0xB4, 0xD7, 0xEF, 0x01]) := by decide +kernel
theorem test_blockDecrypt_keyF :
    blockBytes (blockDecrypt keyF) (b [0, 0, 0, 0x80, 0, 0, 0, 0x80]) =
      some (b [0xB6, 0x01, 0x78, 0xAC, 0x37, 0x61, 0x27, 0xE6]) := by decide +kernel

/-- The tail constants of keys A and F at positions 0 to 7 (2.4). -/
theorem test_tail_constants :
    (List.range 8).map (fun p => tailC keyA (BitVec.ofNat 3 p)) = b [0x3A, 0x32, 0x00, 0x7F, 0xCD, 0x9D, 0x13, 0xF0] ∧
      (List.range 8).map (fun p => tailC keyF (BitVec.ofNat 3 p)) =
        b [0x26, 0x5E, 0x00, 0x6D, 0x7D, 0x83, 0x3F, 0x10] := by decide +kernel

/-- Rows 3 and 6 of the key A table, both directions (2.4). -/
theorem test_tail_bytes : tailEncrypt keyA 3#3 0x7D#8 = 0x5D#8 ∧ tailDecrypt keyA 3#3 0xFF#8 = 0x1F#8 ∧
    tailEncrypt keyA 6#3 0x80#8 = 0xE0#8 ∧ tailDecrypt keyA 6#3 0x7D#8 = 0x1D#8 := by decide +kernel

/-- Rows `L` = 7, 9 of 2.6: a message with no block, and one with a block and a tail byte. -/
theorem test_encrypt_messages :
    encrypt (b [0x30, 0x31, 0x32, 0x33, 0x34, 0x35, 0x36]) keyABytes =
        some (b [0x70, 0x71, 0x32, 0x13, 0xD4, 0xD5, 0x96]) ∧
      encrypt (b [0x30, 0x31, 0x32, 0x33, 0x34, 0x35, 0x36, 0x37, 0x38]) keyABytes =
        some (b [0x19, 0xC7, 0xF0, 0x22, 0xD2, 0xFE, 0xA0, 0x54, 0x78]) ∧ encrypt [] keyABytes = some [] := by
  decide +kernel

theorem test_decrypt_message :
    decrypt (b [0x19, 0xC7, 0xF0, 0x22, 0xD2, 0xFE, 0xA0, 0x54, 0x78]) keyABytes =
      some (b [0x30, 0x31, 0x32, 0x33, 0x34, 0x35, 0x36, 0x37, 0x38]) := by decide +kernel

/-- The commands of program P4's shape: `encUnits` counts the tail position from the start of the message (R201). -/
theorem test_encUnits : encUnits (b [0, 1, 2, 3, 4, 5, 6, 7, 8, 9]) =
    [.encblk (b [0, 1, 2, 3, 4, 5, 6, 7]), .enctail (b [8, 8]), .enctail (b [9, 9])] := by decide +kernel

theorem test_codes : [Phase.idle, Phase.run, Phase.resp].map Phase.code = [0#2, 1#2, 2#2] ∧
    [Op.encblk, Op.decblk, Op.enctail, Op.dectail].map Op.code = [0#2, 1#2, 2#2, 3#2] ∧
    [0#2, 1#2, 2#2, 3#2].map Op.ofCode = [Op.encblk, Op.decblk, Op.enctail, Op.dectail] := by decide

/-- The status bytes of R81. -/
theorem test_status_codes : [Status.ok, .invalidKeyLength, .decodeError, .malformedCiphertext, .badLength, .noKey,
    .illegalCommand].map Status.code = b [0, 1, 2, 3, 4, 5, 6] := by decide

/-! ### One step per command (spec/95_test_vectors.md 2.5) -/

theorem test_stat : answers (bare []) [0x00] [0x00, 0x00] .zero false ∧
    answers (keyed keyA []) [0x00] [0x00, 0x01] keyA true := by decide
theorem test_stat_badLength : answers (bare []) [0x00, 0xAA] [0x04, 0x01] .zero false := by decide

theorem test_ldkey : answers (keyed keyQ [])
    [0x01, 0x35, 0x30, 0x55, 0x76, 0x46, 0x61, 0x79, 0x5A, 0x32, 0x77, 0x35, 0x75, 0x33, 0x4F, 0x39, 0x42] [0x00]
    keyA true := by decide
theorem test_ldkey_invalid : answers (keyed keyA []) [0x01, 0x00, 0x01, 0x02] [0x01, 0x03] .zero false ∧
    answers (keyed keyA []) [0x01] [0x01, 0x00] .zero false ∧
    answers (keyed keyA []) (0x01 :: List.replicate 300 0) [0x01, 0xFF] .zero false := by decide +kernel

theorem test_clrkey : answers (keyed keyA []) [0x02] [0x00] .zero false ∧
    answers (bare []) [0x02] [0x00] .zero false := by decide
theorem test_clrkey_badLength : answers (keyed keyA []) [0x02, 0x00] [0x04, 0x01] keyA true := by decide

theorem test_encblk_accept :
    nextIs (step (keyed keyA [.send (b [0x10, 0x7B, 0x22, 0x70, 0x68, 0x6F, 0x6E, 0x65, 0x22])])) fun t =>
      t.v0 = 0x6870227B#32 ∧ t.v1 = 0x22656E6F#32 ∧ t.sum = 0#32 ∧ t.rnd = 0#6 ∧ t.op = .encblk ∧ t.ph = .run := by
  decide
theorem test_encblk_errors : answers (bare []) [0x10, 0x00] [0x05, 0x00] .zero false ∧
    answers (keyed keyA []) [0x10, 0, 0, 0, 0, 0, 0, 0] [0x04, 0x07] keyA true := by decide

theorem test_decblk_accept :
    nextIs (step (keyed keyA [.send (b [0x11, 0x55, 0xAC, 0xB7, 0xF6, 0x29, 0x04, 0x1B, 0xFC])])) fun t =>
      t.v0 = 0xF6B7AC55#32 ∧ t.v1 = 0xFC1B0429#32 ∧ t.sum = 0xC6EF3720#32 ∧ t.op = .decblk ∧ t.ph = .run := by
  decide
theorem test_decblk_badLength :
    answers (keyed keyA []) [0x11, 0, 0, 0, 0, 0, 0, 0, 0, 0] [0x04, 0x09] keyA true := by decide

theorem test_enctail_accept : nextIs (step (keyed keyA [.send (b [0x20, 0xFB, 0x34])])) fun t =>
    t.pos = 3#3 ∧ t.sAcc = 0x34#8 ∧ t.rnd = 0#6 ∧ t.op = .enctail ∧ t.ph = .run := by decide
theorem test_enctail_errors : answers (bare []) [0x20, 0x00, 0x7D] [0x05, 0x00] .zero false ∧
    answers (keyed keyA []) [0x20, 0x00] [0x04, 0x01] keyA true := by decide

theorem test_dectail_accept : nextIs (step (keyed keyA [.send (b [0x21, 0x28, 0xBD])])) fun t =>
    t.pos = 0#3 ∧ t.sAcc = 0xBD#8 ∧ t.op = .dectail ∧ t.ph = .run := by decide
theorem test_dectail_badLength : answers (keyed keyA []) [0x21, 0, 0, 0] [0x04, 0x03] keyA true := by decide

theorem test_illegal_commands : answers (keyed keyA []) [] [0x06, 0x00] keyA true ∧
    answers (keyed keyA []) [0x03] [0x06, 0x03] keyA true ∧
    answers (keyed keyA []) [0x12, 0, 0, 0, 0, 0, 0, 0, 0] [0x06, 0x12] keyA true ∧
    answers (bare []) [0x30, 0x00, 0x7D] [0x06, 0x30] .zero false ∧
    answers (bare []) [0xFF] [0x06, 0xFF] .zero false := by decide

/-! ### One round, finish, take, reset, waiting step (P4, P6, P7) -/

theorem test_round_block :
    nextIs (step { running .encblk 0#6 [.take] with v0 := 0x6870227B#32, v1 := 0x22656E6F#32 }) fun t =>
      t.v0 = 0xFA5A4F49#32 ∧ t.v1 = 0x154187DB#32 ∧ t.sum = 0x9E3779B9#32 ∧ t.rnd = 1#6 ∧ t.todo = [.take] := by decide
theorem test_round_tail :
    nextIs (step { running .enctail 0#6 [] with pos := 3#3, sAcc := 0x34#8 }) (fun t => t.sAcc = 0xB3#8) ∧
      nextIs (step { running .dectail 0#6 [] with pos := 0#3, sAcc := 0xBD#8 }) (fun t => t.sAcc = 0x83#8) := by decide
theorem test_finish_block :
    nextIs (step { running .encblk 32#6 [] with v0 := 0xF6B7AC55#32, v1 := 0xFC1B0429#32 }) fun t =>
      t.rsp = b [0x00, 0x55, 0xAC, 0xB7, 0xF6, 0x29, 0x04, 0x1B, 0xFC] ∧ t.ph = .resp ∧ t.k = keyA := by decide
theorem test_finish_tail :
    nextIs (step { running .enctail 32#6 [] with sAcc := 0x14#8 }) (fun t => t.rsp = b [0x00, 0x14]) := by decide
theorem test_take : nextIs (step (responding (b [0x00, 0x14]) [.take])) fun t =>
    t.delivered = [b [0x00, 0x14]] ∧ t.rsp = [] ∧ t.ph = .idle := by decide
theorem test_reset_in_run :
    nextIs (step { running .encblk 2#6 [.reset] with v0 := 0xC4811F42#32, v1 := 0xE485ADF8#32, sum := 0x3C6EF372#32 })
      (fun t => t = State.reset) := by decide
theorem test_send_waits_in_resp :
    nextIs (step (responding [0x00#8] [.send [0x00#8]])) (fun t => t = responding [0x00#8] [.send [0x00#8]]) := by decide

/-- What `withFetchWord` places is run by the very next step after reset: `STAT`, and `ENCBLK` without a key. -/
theorem test_withFetchWord :
    nextIs (step (State.reset.withFetchWord 8 0x00)) (fun t => t.rsp = [0x00#8, 0x00#8]) ∧
      nextIs (step (State.reset.withFetchWord 8 0x10)) (fun t => t.rsp = [0x05#8, 0x00#8]) := by decide

/-! ### Witnesses: for every statement with hypotheses, values that meet them, one for each clause -/

/-- `Shifts32AreLogical`: the shift amount where the result becomes 0; the bits of `Xor32IsBitwise` and
`ByteFunctionsWrapAtEightBits`. -/
theorem witness_shift_and_bit_bounds : (32 ≤ 32 ∧ ¬ 32 ≤ 31) ∧ (0 < 32 ∧ 31 < 32) ∧ (0 < 8 ∧ 7 < 8) := by decide

/-- `BytesToWordsLittleEndian`: a length that is a multiple of 4 with its last word, and the lengths around it. -/
theorem witness_BytesToWordsLittleEndian : (zeros 8).length % 4 = 0 ∧ 1 < [0#32, 0#32].length ∧
    bytesToWords (zeros 8) = some [0#32, 0#32] ∧ (zeros 7).length % 4 ≠ 0 ∧ (zeros 9).length % 4 ≠ 0 := by decide

/-- `WordsToBytesLittleEndian`: the last byte of the last word. -/
theorem witness_WordsToBytesLittleEndian : 1 < [0#32, 0x80000000#32].length ∧ 3 < 4 ∧
    (wordsToBytes [0#32, 0x80000000#32])[4 * 1 + 3]? = some 0x80#8 := by decide

/-- `CodecRoundTrip`: the empty string and eight bytes. -/
theorem witness_CodecRoundTrip : ([] : Packet).length % 4 = 0 ∧ (zeros 8).length % 4 = 0 := by decide

/-- `KeyBytesInSuppliedOrder`, `MessageFunctionsUnitByUnit`: the key operand of key A. -/
theorem witness_KeyBytesInSuppliedOrder : keyOfPayload keyABytes = some keyA := by decide

/-- `RoundKeySchedule`, and the round clauses of the four transform commands: both ends. -/
theorem witness_round_counts : 0 ≤ 32 ∧ 32 ≤ 32 := by decide

/-- `StatAnswersTheFlagsByte`, and the payload clause of `ClrkeyErasesTheKey`: the shortest payload that is too long. -/
theorem witness_payload_too_long : (zeros 1).length ≠ 0 := by decide

/-- `LdkeyRejectsOtherLengths`: the lengths around 16, and 0. -/
theorem witness_LdkeyRejectsOtherLengths :
    ([] : Packet).length ≠ 16 ∧ (zeros 15).length ≠ 16 ∧ (zeros 17).length ≠ 16 := by decide

/-- `ClrkeyErasesTheKey`, `ResetThenTransformAnswersNoKey`: the four transform commands. -/
theorem witness_needsKey : ∀ i ∈ [Instr.encblk (zeros 8), .decblk [], .enctail (zeros 2), .dectail (zeros 3)],
    i.opcode.needsKey = true := by decide

/-- `ClrkeyErasesTheKey`, last clauses: a state without a key, and the command after which there is one. -/
theorem witness_ClrkeyErasesTheKey : (bare []).kv = false ∧
    nextIs (exec (.ldkey keyABytes) (bare [])) (fun t => t.kv = true) := by decide

/-- `EncblkEncryptsTheBlock`, `DecblkDecryptsTheBlock`: a key and a host that does not reset; no key; lengths 7 and 9. -/
theorem witness_block_commands : (keyed keyA [.take]).kv = true ∧ HostAct.reset ∉ (keyed keyA [.take]).todo ∧
    (bare []).kv = false ∧ (zeros 7).length ≠ 8 ∧ (zeros 9).length ≠ 8 := by decide

/-- `EnctailEncryptsTheByte`, `DectailDecryptsTheByte`: the same with lengths 1 and 3. -/
theorem witness_tail_commands : (keyed keyA []).kv = true ∧ HostAct.reset ∉ (keyed keyA []).todo ∧
    (bare []).kv = false ∧ (zeros 1).length ≠ 2 ∧ (zeros 3).length ≠ 2 := by decide

/-- `CommandFrame`: each of its clauses has a command under it, and both its ends are reached. -/
theorem witness_CommandFrame : (Instr.stat []).opcode ≠ .ldkey ∧ (Instr.stat []).opcode ≠ .clrkey ∧
    (Instr.clrkey (zeros 1)).opcode = .clrkey ∧ (Instr.clrkey (zeros 1)).payload ≠ [] ∧
    (Instr.ldkey []).opcode = .ldkey ∧ (Instr.decblk []).opcode = .decblk ∧ (Instr.enctail []).opcode = .enctail ∧
    nextIs (exec (.encblk (zeros 8)) (keyed keyA [])) (fun t => t.ph = .run) ∧
    nextIs (exec (.encblk (zeros 8)) (bare [])) (fun t => t.ph = .resp) := by decide

/-- `BlockBufferInSuppliedOrder`: a block command that goes to `RUN`. -/
theorem witness_BlockBufferInSuppliedOrder : (Instr.decblk (b [0, 1, 2, 3, 4, 5, 6, 7])).opcode = .decblk ∧
    nextIs (exec (.decblk (b [0, 1, 2, 3, 4, 5, 6, 7])) (keyed keyA [])) (fun t => t.ph = .run) := by decide

/-- `DecodeIsTheInverseOfEncode`: a packet on each side of each equivalence. -/
theorem witness_DecodeIsTheInverseOfEncode : decode (b [0x20, 0x28, 0x7D]) = .ok (.enctail (b [0x28, 0x7D])) ∧
    encode (.enctail (b [0x28, 0x7D])) = b [0x20, 0x28, 0x7D] ∧ decode [] = .error .emptyPacket ∧
    decode (b [0x22]) = .error (.illegalOpcode 0x22#8) := ⟨rfl, rfl, rfl, rfl⟩

/-- `StepRunsTheDecodedCommand`: a packet presented in `IDLE`, and one placed in a state that is not in `IDLE`. -/
theorem witness_StepRunsTheDecodedCommand : (bare [.send [0x00#8]]).ph = .idle ∧
    (bare [.send [0x00#8]]).todo = .send [0x00#8] :: [] ∧ decode [0x00#8] = .ok (.stat []) ∧
    decodeTableWord 8 0x21 = some (.dectail (zeros 2)) ∧ (responding [0x00#8] []).ph ≠ .idle :=
  ⟨rfl, rfl, rfl, by decide, by decide⟩

/-- `DecodeOrderOfAccept`, lines 1 and 2: the empty packet, and an illegal opcode. -/
theorem witness_DecodeOrderOfAccept_illegal : (bare [.send []]).ph = .idle ∧ (bare [.send []]).todo = .send [] :: [] ∧
    0x03#8 ∉ [0x00#8, 0x01#8, 0x02#8, 0x10#8, 0x11#8, 0x20#8, 0x21#8] := by decide

/-- `DecodeOrderOfAccept`, lines 3, 4: key lengths 15 and 17; a transform of any length without a key. -/
theorem witness_DecodeOrderOfAccept_key : (zeros 15).length ≠ 16 ∧ (zeros 17).length ≠ 16 ∧
    0x10#8 ∈ [0x10#8, 0x11#8, 0x20#8, 0x21#8] ∧ (bare [.send (b [0x10])]).kv = false ∧
    (bare [.send (b [0x10])]).todo = .send (b [0x10]) :: [] := by decide

/-- `DecodeOrderOfAccept`, line 5: each of the three length clauses at the lengths beside the required one. -/
theorem witness_DecodeOrderOfAccept_length : (zeros 1).length ≠ 0 ∧ (keyed keyA []).kv = true ∧
    (zeros 7).length ≠ 8 ∧ (zeros 9).length ≠ 8 ∧ (zeros 1).length ≠ 2 ∧ (zeros 3).length ≠ 2 := by decide

/-- `DecodeOrderOfAccept`, line 6: a performed command of each length. -/
theorem witness_DecodeOrderOfAccept_performed : ([] : Packet).length = 0 ∧ keyABytes.length = 16 ∧
    (keyed keyA [.send (0x10#8 :: zeros 8)]).kv = true ∧ (zeros 8).length = 8 ∧ (zeros 2).length = 2 ∧
    (keyed keyA [.send (0x10#8 :: zeros 8)]).todo = .send (0x10#8 :: zeros 8) :: [] := by decide

/-- `ErrorsChangeOnlyTheResponse`: each error, and a command of each kind. -/
theorem witness_verdicts : verdict true [] = .error (.illegalCommand 0x00#8) ∧
    verdict true (0x01#8 :: zeros 15) = .error (.invalidKeyLength 15) ∧ verdict false (b [0x10]) = .error .noKey ∧
    verdict true (0x11#8 :: zeros 9) = .error (.badLength 9) ∧
    verdict true (b [0x20, 0x28, 0x7D]) = .ok (.enctail (b [0x28, 0x7D])) ∧ verdict false [0x00#8] = .ok (.stat []) ∧
    (Instr.enctail (b [0x28, 0x7D])).opcode.needsKey = true ∧ (Instr.stat []).opcode.needsKey = false :=
  ⟨rfl, rfl, rfl, rfl, rfl, rfl, rfl, rfl⟩

/-- `StepCounts`: a transform performed, with a host that offers more and waits; an error; a command that is no transform. -/
theorem witness_StepCounts : (keyed keyA [.send (b [0x20, 0x28, 0x7D]), .wait, .send [], .take]).ph = .idle ∧
    (keyed keyA [.send (b [0x20, 0x28, 0x7D]), .wait, .send [], .take]).todo =
      .send (b [0x20, 0x28, 0x7D]) :: [.wait, .send [], .take] ∧ HostAct.reset ∉ [HostAct.wait, .send [], .take] ∧
    verdict (keyed keyA []).kv (b [0x20, 0x28, 0x7D]) = .ok (.enctail (b [0x28, 0x7D])) ∧
    (Instr.enctail (b [0x28, 0x7D])).opcode.needsKey = true ∧
    (∀ i, verdict true [] = .ok i → i.opcode.needsKey = false) ∧
    ∀ i, verdict true [0x00#8] = .ok i → i.opcode.needsKey = false := by
  refine ⟨rfl, rfl, by decide, rfl, rfl, ?_, ?_⟩ <;> intro i h
  · cases (show (Except.error (.illegalCommand 0x00#8) : Except CmdError Instr) = .ok i from h)
  · cases (show (Except.ok (.stat []) : Except CmdError Instr) = .ok i from h)
    rfl

/-- `ErrorsChangeOnlyTheResponse`: the state and the packet of an error. -/
theorem witness_ErrorsChangeOnlyTheResponse : (keyed keyA [.send [], .take]).ph = .idle ∧
    (keyed keyA [.send [], .take]).todo = .send [] :: [.take] := by decide

/-- `RoundStepDoesOneRound`: the first round and the last, with a host that waits, for each transform. -/
theorem witness_RoundStepDoesOneRound : ∀ op ∈ [Op.encblk, .decblk, .enctail, .dectail], ∀ r ∈ [0#6, 31#6],
    (running op r [.wait]).ph = .run ∧ (running op r [.wait]).op = op ∧ (running op r [.wait]).rnd.toNat < 32 ∧
      ∀ rest, (running op r [.wait]).todo ≠ .reset :: rest := by
  simp [running, keyed, bare]

/-- `FinishStepPacksTheResult`: round 32. -/
theorem witness_FinishStepPacksTheResult : ∀ op ∈ [Op.encblk, .decblk, .enctail, .dectail],
    (running op 32#6 [.take]).ph = .run ∧ (running op 32#6 [.take]).rnd.toNat = 32 ∧
      ∀ rest, (running op 32#6 [.take]).todo ≠ .reset :: rest := by
  simp [running, keyed, bare]

/-- `NoStepBeyondRound32`: rounds 33 and 63. -/
theorem witness_NoStepBeyondRound32 : ∀ r ∈ [33#6, 63#6],
    (running .encblk r []).ph = .run ∧ 32 < (running .encblk r []).rnd.toNat ∧
      ∀ rest, (running .encblk r []).todo ≠ .reset :: rest := by
  simp [running, keyed, bare]

/-- `TakeStepDeliversTheResponse`: a host that takes, and one that offers a packet. -/
theorem witness_TakeStepDeliversTheResponse : (responding [0x00#8] [.take]).ph = .resp ∧
    (responding [0x00#8] [.take]).todo = .take :: [] ∧
    (∀ rest, (responding [0x00#8] [.send []]).todo ≠ .take :: rest) ∧
    ∀ rest, (responding [0x00#8] [.send []]).todo ≠ .reset :: rest := by
  simp [responding, bare]

/-- `CoreWaitsForTheHost`: `IDLE` with a host that takes or waits, `RESP` with a host that sends. -/
theorem witness_CoreWaitsForTheHost : (bare [.take]).ph = .idle ∧ (∀ p rest, (bare [.take]).todo ≠ .send p :: rest) ∧
    (∀ rest, (bare [.take]).todo ≠ .wait :: rest) ∧ (bare [.wait]).todo = .wait :: [] ∧
    (∀ p rest, (bare [.wait]).todo ≠ .send p :: rest) ∧ (∀ rest, (bare [.wait]).todo ≠ .reset :: rest) ∧
    (responding [0x00#8] [.send []]).ph = .resp ∧ ∀ rest, (responding [0x00#8] [.send []]).todo ≠ .take :: rest := by
  simp [responding, bare, State.reset]

/-- `ResetWinsInEveryPhase`: a reset in each phase. -/
theorem witness_ResetWinsInEveryPhase : (bare [.reset]).todo = .reset :: [] ∧
    (running .encblk 2#6 [.reset]).todo = .reset :: [] ∧ (responding [0x00#8] [.reset]).todo = .reset :: [] := by decide

/-- `ResetThenTransformAnswersNoKey`: program P6 from its reset on. -/
theorem witness_ResetThenTransformAnswersNoKey : (Instr.encblk (zeros 8)).opcode.needsKey = true ∧
    (running .encblk 2#6 [.reset, .send (encode (.encblk (zeros 8))), .take]).todo =
      .reset :: .send (encode (.encblk (zeros 8))) :: .take :: [] := by decide

/-- `KeyChangesOnlyByKeyCommands`: the three ways a key changes. -/
theorem witness_KeyChangesOnlyByKeyCommands : ∀ s ∈ [keyed keyA [.reset], keyed keyA [.send [0x01#8]],
    keyed keyA [.send [0x02#8]]], ∃ t, step s = .next t ∧ t.session ≠ s.session := by
  intro s hs
  simp only [List.mem_cons, List.not_mem_nil, or_false] at hs
  obtain rfl | rfl | rfl := hs
  · exact ⟨_, rfl, by decide⟩
  · exact ⟨_, rfl, by decide⟩
  · exact ⟨_, rfl, by decide⟩

/-- `ResponsesLeaveOnlyByTake`: a step that delivers, and one that does not. -/
theorem witness_ResponsesLeaveOnlyByTake :
    (∃ t, step (responding [0x00#8] [.take]) = .next t ∧ t.delivered = [[0x00#8]]) ∧
      ∃ t, step (bare [.send []]) = .next t ∧ t.delivered = [] := ⟨⟨_, rfl, rfl⟩, _, rfl, rfl⟩

/-- `StepKeepsTheGoodState`, `GoodStatesRunForever`: a good state in each phase, in `RUN` at the first and the last round,
and its step. -/
theorem witness_StepKeepsTheGoodState : ∀ s ∈ [keyed keyA [.send (0x10#8 :: zeros 8)], running .encblk 0#6 [],
    { running .decblk 32#6 [] with sum := 0#32 }, responding [0x00#8] [.take]], s.Inv ∧ ∃ t, step s = .next t := by
  intro s hs
  simp only [List.mem_cons, List.not_mem_nil, or_false] at hs
  obtain rfl | rfl | rfl | rfl := hs
  · exact ⟨by decide, _, rfl⟩
  · exact ⟨by decide, _, rfl⟩
  · exact ⟨by decide, _, rfl⟩
  · exact ⟨by decide, _, rfl⟩

/-- `MachineRefinesAtomicReading`: a transform performed (34 steps) and an error (1 step), each sent and then taken. -/
theorem witness_MachineRefinesAtomicReading : (keyed keyA [.send (b [0x20, 0x28, 0x7D]), .take]).ph = .idle ∧
    (keyed keyA [.send (b [0x20, 0x28, 0x7D]), .take]).todo = .send (b [0x20, 0x28, 0x7D]) :: .take :: [] ∧
    stepsOf ⟨keyA, true⟩ (b [0x20, 0x28, 0x7D]) = 34 ∧ stepsOf ⟨keyA, true⟩ [] = 1 ∧
    answer ⟨keyA, true⟩ (b [0x20, 0x28, 0x7D]) = some (⟨keyA, true⟩, b [0x00, 0xBD]) := by decide +kernel

/-- A state that looks like `keyed keyA []` and differs in every transient register. -/
def otherTransients : State where
  k := keyA
  kv := true
  ph := .idle
  op := .decblk
  v0 := 1#32
  v1 := 1#32
  sum := 1#32
  sAcc := 1#8
  pos := 1#3
  rnd := 1#6
  rsp := []
  todo := []
  delivered := []
  freeCtr := 7

/-- `TransientsNeverShow`: two states that look alike and differ. -/
theorem witness_TransientsNeverShow : (keyed keyA []).ph = .idle ∧ (keyed keyA []).visible = otherTransients.visible ∧
    keyed keyA [] ≠ otherTransients := ⟨rfl, rfl, by decide⟩

/-- `KeyIsNotReadBack`, the step: a state in each phase, in `RUN` at the rounds 0, 31 and 32, with and without a reset. -/
theorem witness_KeyIsNotReadBack_step : keyA ≠ keyQ ∧
    (∀ s ∈ [keyed keyA [.send [0x00#8]], running .encblk 0#6 [], running .dectail 31#6 [.wait],
      running .enctail 5#6 [.reset], running .decblk 32#6 [.take], responding [0x00#8] [.take]],
      s.ph = .run → s.rnd.toNat ≤ 32) ∧
    (keyed keyA [.send [0x00#8]]).ph ≠ .run ∧ (running .decblk 32#6 [.take]).rnd.toNat = 32 ∧
    (running .enctail 5#6 [.reset]).todo.head? = some .reset := by decide

/-- `KeyIsNotReadBack`, the response: `STAT` with a key, a transform without one, and an error. -/
theorem witness_KeyIsNotReadBack_response : (∀ i, verdict true [0x00#8] = .ok i → i.opcode.needsKey = false) ∧
    (∀ i, verdict false (0x10#8 :: zeros 8) = .ok i → i.opcode.needsKey = false) ∧
    ∀ i, verdict true (0x10#8 :: zeros 7) = .ok i → i.opcode.needsKey = false := by
  refine ⟨?_, ?_, ?_⟩ <;> intro i h
  · cases (show (Except.ok (.stat []) : Except CmdError Instr) = .ok i from h)
    rfl
  · cases (show (Except.error .noKey : Except CmdError Instr) = .ok i from h)
  · cases (show (Except.error (.badLength 7) : Except CmdError Instr) = .ok i from h)

/-- `MessageSplit`: the last tail byte of a message of 15 bytes; a message of 16 bytes has none. -/
theorem witness_MessageSplit :
    (msgTail (b [0, 1, 2, 3, 4, 5, 6, 7, 8, 9, 10, 11, 12, 13, 14]))[6]? = some (14#8, 14) ∧ msgTail (zeros 16) = [] := by
  decide +kernel

/-- `MessageFunctionsUnitByUnit`: a key of another length; the last block and the first and last tail byte of 15 bytes. -/
theorem witness_MessageFunctionsUnitByUnit : (zeros 15).length ≠ 16 ∧ (zeros 17).length ≠ 16 ∧
    keyOfPayload keyABytes = some keyA ∧ 0 < (zeros 15).length / 8 ∧ (zeros 15).length / 8 * 8 ≤ 8 ∧
    (zeros 15)[8]? = some 0#8 ∧ (zeros 15)[14]? = some 0#8 := by decide

/-- `MessageRoundTrip`, `DriverComputesTheMessageFunctions`: a key of 16 bytes, an `IDLE` state, the lengths around 16. -/
theorem witness_keys_of_16 : keyABytes.length = 16 ∧ (bare []).ph = .idle ∧ (zeros 15).length ≠ 16 ∧
    (zeros 17).length ≠ 16 := by decide

/-- `AlignedPrefixIsIndependent`: rows `L` = 8 and 9 of 2.6. -/
theorem witness_AlignedPrefixIsIndependent :
    encrypt (b [0x30, 0x31, 0x32, 0x33, 0x34, 0x35, 0x36, 0x37]) keyABytes =
        some (b [0x19, 0xC7, 0xF0, 0x22, 0xD2, 0xFE, 0xA0, 0x54]) ∧
      encrypt (b [0x30, 0x31, 0x32, 0x33, 0x34, 0x35, 0x36, 0x37, 0x38]) keyABytes =
        some (b [0x19, 0xC7, 0xF0, 0x22, 0xD2, 0xFE, 0xA0, 0x54, 0x78]) ∧
      8 * 1 ≤ (b [0x30, 0x31, 0x32, 0x33, 0x34, 0x35, 0x36, 0x37]).length ∧
      (b [0x30, 0x31, 0x32, 0x33, 0x34, 0x35, 0x36, 0x37]).take (8 * 1) =
        (b [0x30, 0x31, 0x32, 0x33, 0x34, 0x35, 0x36, 0x37, 0x38]).take (8 * 1) := by decide +kernel

end Sys2Proof.Tests
end

section
/-! PROOFS. The hard-wired constants (spec/00_scope.md R7 to R13): their values, one lemma each for later proofs to
cite, and the pad ROM as a list read in index order. -/

namespace Sys2Proof.Machine

@[simp] theorem cfg_times : cfg.times = 32 := rfl
@[simp] theorem cfg_delta : cfg.delta = 0x9E3779B9#32 := rfl
@[simp] theorem cfg_sum0 : cfg.sum0 = 0xC6EF3720#32 := rfl
@[simp] theorem cfg_shlB : cfg.shlB = 6 := rfl
@[simp] theorem cfg_shrB : cfg.shrB = 3 := rfl
@[simp] theorem cfg_shlT : cfg.shlT = 3 := rfl
@[simp] theorem cfg_shrT : cfg.shrT = 2 := rfl
@[simp] theorem cfg_keyLen : cfg.keyLen = 16 := rfl
@[simp] theorem cfg_blockLen : cfg.blockLen = 8 := rfl

/-- R9: decryption starts from the accumulator that encryption ends on, `TIMES` deltas modulo `2^32`. -/
theorem cfg_sum0_eq_sumAt_times : cfg.sum0 = sumAt cfg.times := by decide

/-- R51: a read at an index below 8 is that entry of the ROM; the 3-bit index does not wrap. -/
theorem padByte_ofNat (i : Nat) (hi : i < 8) : padByte (BitVec.ofNat 3 i) = cfg.pad[i] := by
  have hidx : (BitVec.ofNat 3 i).toNat = i := by
    rw [BitVec.toNat_ofNat]
    exact Nat.mod_eq_of_lt hi
  simp only [padByte, hidx]

/-- R51: reading the indices 0 to 7 in order lists the whole ROM. -/
theorem map_padByte_range : (List.range 8).map (fun i => padByte (BitVec.ofNat 3 i)) = cfg.pad.toList := by
  apply List.ext_getElem
  · simp
  · intro i hi _
    have hi8 : i < 8 := by simpa using hi
    rw [List.getElem_map, List.getElem_range, padByte_ofNat i hi8, Vector.getElem_toList]

/-- R10, G1: the ROM's entries are the character codes of "hicomtea", index 0 the first character. -/
theorem pad_toList_eq_ascii : cfg.pad.toList = "hicomtea".toList.map fun c => BitVec.ofNat 8 c.toNat := by decide

/-- Settles O1: each constant by its lemma; the formula for `SUM0` because it is the accumulator after `TIMES` rounds. -/
theorem constantsAreTheSpecs : Obligations.ConstantsAreTheSpecs := by
  unfold Obligations.ConstantsAreTheSpecs
  have hsum0 : cfg.sum0 = BitVec.ofNat 32 (32 * 0x9E3779B9) := cfg_sum0_eq_sumAt_times
  exact ⟨cfg_times, cfg_delta, cfg_sum0, hsum0, cfg_shlB, cfg_shrB, cfg_shlT, cfg_shrT, cfg_keyLen, cfg_blockLen⟩

/-- Settles O2: the eight reads list the ROM in order, and the ROM holds the character codes. -/
theorem padIsHicomtea : Obligations.PadIsHicomtea := by
  unfold Obligations.PadIsHicomtea
  exact map_padByte_range.trans pad_toList_eq_ascii

end Sys2Proof.Machine
end

section
/-! PROOFS. The frame of the accept step (spec/10_state.md R41, spec/60_exceptions.md R241), and what follows from it for
a packet: who can change the session, and that no accept delivers anything. -/

namespace Sys2Proof.Machine

/-- A packet decodes to a command only if it is that command's encoding (R72, R84). -/
theorem encode_of_decode {p : Packet} {i : Instr} (h : decode p = .ok i) : encode i = p := by
  cases p with
  | nil => cases h
  | cons b pl =>
    obtain ⟨o, hb, e⟩ | ⟨-, e⟩ := decode_cons_cases b pl <;> rw [e] at h <;> cases h
    simp [encode, hb]

/-- Settles O31: the frame holds in each of the cases of an accept step, by the frame of the operation it ends in. -/
theorem commandFrame : Obligations.CommandFrame := by
  unfold Obligations.CommandFrame
  intro i s
  obtain ⟨t, e, ht⟩ := exec_cases i s
  refine ⟨t, e, ?_⟩
  obtain ⟨_, -, -, rfl⟩ | ⟨_, rfl, -, rfl⟩ | ⟨_, _, rfl, -, rfl⟩ | ⟨rfl, rfl⟩ | ⟨rfl, rfl⟩ | ⟨_, _, rfl, -, -, rfl⟩ |
    ⟨_, _, rfl, -, -, rfl⟩ | ⟨_, _, rfl, -, -, rfl⟩ | ⟨_, _, rfl, -, -, rfl⟩ := ht
  all_goals simp [State.transients, Instr.opcode, Instr.payload]

theorem exec_delivered {i : Instr} {s t : State} (h : exec i s = .next t) : t.delivered = s.delivered := by
  obtain ⟨t', e, -, hd, -⟩ := commandFrame i s
  cases e.symm.trans h
  exact hd

/-- Only `LDKEY` and a `CLRKEY` without payload change the session (R21, R132). -/
theorem exec_session_change {i : Instr} {s t : State} (h : exec i s = .next t) (hc : t.session ≠ s.session) :
    i.opcode = .ldkey ∨ i.opcode = .clrkey ∧ i.payload = [] := by
  obtain ⟨t', e, -, -, -, hother, hclrkey, -⟩ := commandFrame i s
  cases e.symm.trans h
  by_contra hi
  obtain ⟨hl, hc'⟩ := not_or.mp hi
  have hk : t.k = s.k ∧ t.kv = s.kv := by
    by_cases hclr : i.opcode = .clrkey
    · exact hclrkey ⟨hclr, fun hp => hc' ⟨hclr, hp⟩⟩
    · exact hother ⟨hl, hclr⟩
  exact hc (by simp [State.session, hk])

theorem accept_delivered {p : Packet} {s t : State} (h : accept p s = .next t) : t.delivered = s.delivered := by
  obtain ⟨r, -, e⟩ | ⟨i, -, e⟩ := accept_cases p s <;> rw [e] at h
  · cases h
    rfl
  · exact exec_delivered h

/-- The packets that can change the session: an `LDKEY` of any length, and the one-byte packet `CLRKEY`. -/
theorem accept_session_change {p : Packet} {s t : State} (h : accept p s = .next t) (hc : t.session ≠ s.session) :
    ∃ op pl, p = op :: pl ∧ (op = 0x01#8 ∨ op = 0x02#8 ∧ pl = []) := by
  obtain ⟨r, -, e⟩ | ⟨i, hi, e⟩ := accept_cases p s <;> rw [e] at h
  · cases h
    exact absurd rfl hc
  · refine ⟨i.opcode.byte, i.payload, (encode_of_decode hi).symm, ?_⟩
    obtain hl | ⟨hcl, hp⟩ := exec_session_change h hc
    · exact .inl (by rw [hl]; rfl)
    · exact .inr ⟨by rw [hcl]; rfl, hp⟩

/-- Settles O47: every other step keeps `K` and `KV`. -/
theorem keyChangesOnlyByKeyCommands : Obligations.KeyChangesOnlyByKeyCommands := by
  unfold Obligations.KeyChangesOnlyByKeyCommands
  intro s t h hc
  obtain ⟨rest, hr, -⟩ | ⟨p, rest, hp, hs, ha⟩ | ⟨-, rfl⟩ | ⟨-, -, rfl⟩ | ⟨-, -, rfl⟩ | ⟨rest, -, -, rfl⟩ := step_cases h
  case inl => exact .inl ⟨rest, hr⟩
  case inr.inl =>
    obtain ⟨op, pl, rfl, hop⟩ := accept_session_change ha hc
    exact .inr ⟨hp, op, pl, rest, hs, hop⟩
  all_goals exact absurd (by simp [State.session]) hc

/-- Settles O48: of all steps only a take touches what is delivered. -/
theorem responsesLeaveOnlyByTake : Obligations.ResponsesLeaveOnlyByTake := by
  unfold Obligations.ResponsesLeaveOnlyByTake
  intro s t h
  obtain ⟨rest, -, rfl⟩ | ⟨p, rest, -, -, ha⟩ | ⟨-, rfl⟩ | ⟨-, -, rfl⟩ | ⟨-, -, rfl⟩ | ⟨rest, hp, ht, rfl⟩ := step_cases h
  case inr.inl => exact .inl (accept_delivered (s := s.withTodo rest) ha)
  case inr.inr.inr.inr.inr => exact .inr ⟨hp, rfl, rfl, rfl, rest, ht, rfl⟩
  all_goals exact .inl (by simp)

end Sys2Proof.Machine
end

section
/-! PROOFS. The key bytes of a payload (spec/10_state.md R23, spec/41_word_codec.md R126), and the values after reset
(spec/10_state.md R40). -/

namespace Sys2Proof.Machine

/-- R23, R57: the byte view of the key is its four words as a byte string, in register order. -/
theorem wordsToBytes_key (k : KeyRegs) : wordsToBytes [k.k0, k.k1, k.k2, k.k3] = List.ofFn k.byte := rfl

/-- R126: the four words of a key operand, as bytes, are the payload again. -/
theorem wordsToBytes_keyOfPayload {pl : Packet} {k : KeyRegs} (h : keyOfPayload pl = some k) :
    wordsToBytes [k.k0, k.k1, k.k2, k.k3] = pl := by
  have hlen : pl.length = 16 := (keyOfPayload_isSome_iff pl).mp (by simp [h])
  match pl, hlen with
  | [_, _, _, _, _, _, _, _, _, _, _, _, _, _, _, _], _ =>
    rw [keyOfPayload_bytes] at h
    cases h
    simp [unpackWord_packWord]

/-- Settles O12: the payload is the list of the key's bytes `KB[0..15]`. -/
theorem keyBytesInSuppliedOrder : Obligations.KeyBytesInSuppliedOrder := by
  unfold Obligations.KeyBytesInSuppliedOrder
  intro pl k h
  have hpl : pl = List.ofFn k.byte := (wordsToBytes_keyOfPayload h).symm.trans (wordsToBytes_key k)
  refine ⟨by simp [hpl], fun j => ⟨?_, wordByte_eq_div _ _⟩⟩
  rw [hpl, List.getElem?_ofFn, dif_pos j.isLt]

/-- Settles O44: each register by its reset value. -/
theorem resetValues : Obligations.ResetValues := by
  unfold Obligations.ResetValues
  exact ⟨rfl, rfl, rfl, rfl, rfl, rfl, rfl, rfl, rfl, rfl, rfl, rfl⟩

end Sys2Proof.Machine
end

section
/-! PROOFS. The good state of Safety.lean: what it takes in each phase, and that every step keeps it. -/

namespace Sys2Proof.Machine

/-! ### The good state, phase by phase -/

theorem State.inv_of_idle {s : State} (hp : s.ph = .idle) (hr : s.rsp = [])
    (hd : ∀ r ∈ s.delivered, wellFormedResponse r = true) (hk : s.kv = false → s.k = .zero) : s.Inv :=
  ⟨⟨fun _ => hr, by simp [hp], hd⟩, by simp [hp], ⟨by simp [hp], hk⟩, by simp [hp]⟩

theorem State.inv_of_resp {s : State} (hp : s.ph = .resp) (hr : wellFormedResponse s.rsp = true)
    (hd : ∀ r ∈ s.delivered, wellFormedResponse r = true) (hk : s.kv = false → s.k = .zero) : s.Inv :=
  ⟨⟨by simp [hp], fun _ => hr, hd⟩, by simp [hp], ⟨by simp [hp], hk⟩, by simp [hp]⟩

theorem State.inv_of_run {s : State} (hp : s.ph = .run) (hr : s.rsp = [])
    (hd : ∀ r ∈ s.delivered, wellFormedResponse r = true) (hn : s.rnd.toNat ≤ 32) (hk : s.kv = true)
    (hs : s.SumInv) : s.Inv :=
  ⟨⟨fun _ => hr, by simp [hp], hd⟩, fun _ => hn, ⟨fun _ => hk, by simp [hk]⟩, hs⟩

/-! ### Responses are well shaped -/

/-- R80: an error response is one of the four error statuses and one info byte. -/
theorem wellFormedResponse_error (e : CmdError) : wellFormedResponse e.packet = true := by
  cases e <;> simp [CmdError.packet, CmdError.status, wellFormedResponse, Status.code]

/-- R80: an `OK` response has a body of 0, 1 or 8 bytes. -/
theorem wellFormedResponse_ok {b : Packet} (h : b.length = 0 ∨ b.length = 1 ∨ b.length = 8) :
    wellFormedResponse (Status.ok.code :: b) = true := by
  simpa [wellFormedResponse, or_assoc] using h

/-- R76: a transform's result is one byte or eight. -/
theorem resultBody_length (s : State) : (resultBody s).length = 1 ∨ (resultBody s).length = 8 := by
  cases h : s.op <;> simp [resultBody, h]

/-! ### The accumulator stays on the schedule -/

theorem encRound_sum (k : KeyRegs) (b : BlockState) : (encRound k b).sum = b.sum + cfg.delta := rfl

theorem decRound_sum (k : KeyRegs) (b : BlockState) : (decRound k b).sum = b.sum - cfg.delta := rfl

/-- R153: encryption starts at entry 0 of the schedule. -/
theorem sumAt_zero : sumAt 0 = 0#32 := by simp [sumAt]

/-- R153: one entry of the schedule further is one delta more. -/
theorem sumAt_succ (r : Nat) : sumAt (r + 1) = sumAt r + cfg.delta := by
  simp [sumAt, Nat.add_mul, BitVec.ofNat_add]

/-- R25: what a round does to the accumulator, by transform. -/
theorem roundStep_sum_eq (s : State) : (roundStep s).sum = match s.op with
    | .encblk => s.sum + cfg.delta
    | .decblk => s.sum - cfg.delta
    | .enctail | .dectail => s.sum := by
  rw [roundStep_sum]
  cases h : s.op <;> simp [roundOf, h, encRound_sum, decRound_sum, State.blockState]

/-- R153: a round moves a running block's accumulator to its next entry of the schedule. -/
theorem roundStep_sumInv {s : State} (hp : s.ph = .run) (hn : s.rnd.toNat < 32) (h : s.SumInv) :
    (roundStep s).SumInv := by
  obtain ⟨henc, hdec⟩ := h hp
  have hrnd : (roundStep s).rnd.toNat = s.rnd.toNat + 1 := by rw [roundStep_rnd, rnd_succ hn]
  intro _
  rw [hrnd, roundStep_op, roundStep_sum_eq]
  constructor
  · intro ho
    simp only [ho, henc ho, sumAt_succ]
  · intro ho
    have hleft : 32 - s.rnd.toNat = 32 - (s.rnd.toNat + 1) + 1 := by omega
    simp only [ho, hdec ho]
    rw [hleft, sumAt_succ, BitVec.add_sub_cancel]

/-! ### Every step keeps it -/

/-- A command accepted in a good `IDLE` state leads to a good state. -/
theorem exec_inv {i : Instr} {s t : State} (hi : s.Inv) (hp : s.ph = .idle) (h : exec i s = .next t) : t.Inv := by
  obtain ⟨⟨hr, -, hd⟩, -, ⟨-, hk⟩, -⟩ := hi
  have hr : s.rsp = [] := hr (by simp [hp])
  obtain ⟨t', ht', ht⟩ := exec_cases i s
  cases ht'.symm.trans h
  obtain ⟨e, -, -, rfl⟩ | ⟨pl, -, -, rfl⟩ | ⟨pl, k, -, -, rfl⟩ | ⟨-, rfl⟩ | ⟨-, rfl⟩ | ⟨pl, v, -, hv, -, rfl⟩ |
    ⟨pl, v, -, hv, -, rfl⟩ | ⟨pl, a, -, hv, -, rfl⟩ | ⟨pl, a, -, hv, -, rfl⟩ := ht
  · exact State.inv_of_resp rfl (wellFormedResponse_error e) hd hk
  · exact State.inv_of_resp rfl (wellFormedResponse_error _) hd fun _ => rfl
  · exact State.inv_of_resp rfl (wellFormedResponse_ok (.inl rfl)) hd (by simp)
  · exact State.inv_of_resp rfl (wellFormedResponse_ok (.inr (.inl rfl))) hd hk
  · exact State.inv_of_resp rfl (wellFormedResponse_ok (.inl rfl)) hd fun _ => rfl
  · exact State.inv_of_run rfl hr hd (by simp) hv fun _ => ⟨fun _ => sumAt_zero.symm, by simp⟩
  · exact State.inv_of_run rfl hr hd (by simp) hv fun _ => ⟨by simp, fun _ => cfg_sum0_eq_sumAt_times⟩
  · exact State.inv_of_run rfl hr hd (by simp) hv fun _ => ⟨by simp, by simp⟩
  · exact State.inv_of_run rfl hr hd (by simp) hv fun _ => ⟨by simp, by simp⟩

theorem accept_inv {p : Packet} {s t : State} (hi : s.Inv) (hp : s.ph = .idle) (h : accept p s = .next t) : t.Inv := by
  obtain ⟨r, -, e⟩ | ⟨i, -, e⟩ := accept_cases p s <;> rw [e] at h
  · cases h
    obtain ⟨⟨-, -, hd⟩, -, ⟨-, hk⟩, -⟩ := hi
    exact State.inv_of_resp rfl (wellFormedResponse_error _) hd hk
  · exact exec_inv hi hp h

/-- What the host will do is no part of the good state. -/
theorem withTodo_inv {s : State} (hi : s.Inv) (rest : List HostAct) : (s.withTodo rest).Inv := hi

theorem passTime_inv {s : State} (hi : s.Inv) : s.passTime.Inv := by
  obtain ⟨rest, -, e⟩ | e := s.passTime_todo_cases <;> rw [e]
  · exact withTodo_inv hi rest
  · exact hi

theorem resetRegisters_inv {s : State} (hi : s.Inv) : (resetRegisters s).Inv := by
  obtain ⟨⟨-, -, hd⟩, -⟩ := hi
  exact State.inv_of_idle rfl rfl hd fun _ => rfl

theorem roundStep_inv {s : State} (hi : s.Inv) (hp : s.ph = .run) (hn : s.rnd.toNat < 32) : (roundStep s).Inv := by
  obtain ⟨⟨hr, -, hd⟩, -, ⟨hk, -⟩, hs⟩ := hi
  have hrnd : (roundStep s).rnd.toNat ≤ 32 := by rw [roundStep_rnd, rnd_succ hn]; omega
  exact State.inv_of_run (by simp [hp]) (by simp [hr, hp]) (by simpa using hd) hrnd (by simp [hk hp])
    (roundStep_sumInv hp hn hs)

theorem finishStep_inv {s : State} (hi : s.Inv) : (finishStep s).Inv := by
  obtain ⟨⟨-, -, hd⟩, -, ⟨-, hk⟩, -⟩ := hi
  exact State.inv_of_resp rfl (wellFormedResponse_ok (.inr (resultBody_length s))) hd hk

theorem takeResponse_inv {s : State} (hi : s.Inv) (hp : s.ph = .resp) : (takeResponse s).Inv := by
  obtain ⟨⟨-, hr, hd⟩, -, ⟨-, hk⟩, -⟩ := hi
  refine State.inv_of_idle rfl rfl (fun r hm => ?_) hk
  obtain hm | hm := List.mem_append.mp hm
  · exact hd r hm
  · rw [List.mem_singleton.mp hm]
    exact hr hp

/-- Settles O49: each kind of step keeps the good state. -/
theorem stepKeepsTheGoodState : Obligations.StepKeepsTheGoodState := by
  unfold Obligations.StepKeepsTheGoodState
  intro s t hi h
  obtain ⟨rest, -, rfl⟩ | ⟨p, rest, hp, -, ha⟩ | ⟨-, rfl⟩ | ⟨hp, hn, rfl⟩ | ⟨-, -, rfl⟩ | ⟨rest, hp, -, rfl⟩ :=
    step_cases h
  · exact resetRegisters_inv (withTodo_inv hi rest)
  · exact accept_inv (withTodo_inv hi rest) hp ha
  · exact passTime_inv hi
  · exact roundStep_inv (passTime_inv hi) (by simp [hp]) (by simpa using hn)
  · exact finishStep_inv (passTime_inv hi)
  · exact takeResponse_inv (withTodo_inv hi rest) hp

/-- Settles O50: the state after reset is `IDLE` with no key, no response and nothing delivered. -/
theorem resetIsAGoodState : Obligations.ResetIsAGoodState := by
  unfold Obligations.ResetIsAGoodState
  exact State.inv_of_idle rfl rfl (by simp [State.reset]) fun _ => rfl

end Sys2Proof.Machine
end

section
/-! PROOFS. Two runs side by side: a relation between states that every operation of CORE keeps is kept by every step that
is neither a round nor a finish. Both noninterference statements use it, each with its own relation. -/

namespace Sys2Proof.Machine

/-- The relation `R` ties the host, the phase and the key-valid flag, and every operation but the rounds and the finish
keeps it. -/
structure OpsKeep (R : State → State → Prop) : Prop where
  kv {s t : State} : R s t → s.kv = t.kv
  ph {s t : State} : R s t → s.ph = t.ph
  todo {s t : State} : R s t → s.todo = t.todo
  withTodo {s t : State} (rest : List HostAct) : R s t → R (s.withTodo rest) (t.withTodo rest)
  respondOk {s t : State} (body : Packet) : R s t → R (respondOk body s) (respondOk body t)
  raise {s t : State} (e : CmdError) : R s t → R (raise e s) (raise e t)
  takeResponse {s t : State} : R s t → R (takeResponse s) (takeResponse t)
  loadKey {s t : State} (k : KeyRegs) : R s t → R (loadKey k s) (loadKey k t)
  eraseKey {s t : State} : R s t → R (eraseKey s) (eraseKey t)
  resetRegisters {s t : State} : R s t → R (resetRegisters s) (resetRegisters t)
  beginBlock {s t : State} (op : Op) (v : Word × Word) (sum : Word) (hop : op = .encblk ∨ op = .decblk) :
    R s t → R (beginBlock op v sum s) (beginBlock op v sum t)
  beginTail {s t : State} (op : Op) (a : BitVec 3 × Byte) (hop : op = .enctail ∨ op = .dectail) :
    R s t → R (beginTail op a s) (beginTail op a t)

variable {R : State → State → Prop} {s t : State}

theorem OpsKeep.requireKey (c : OpsKeep R) (h : R s t) {s' t' : State} (h' : R s' t') :
    R (requireKey s s') (requireKey t t') := by
  obtain ⟨hk, e⟩ | ⟨hk, e⟩ := requireKey_cases s s' <;> rw [e]
  · rwa [requireKey_of_key (c.kv h ▸ hk)]
  · rw [requireKey_of_no_key (c.kv h ▸ hk)]
    exact c.raise _ h

theorem OpsKeep.requireOperands (c : OpsKeep R) (h : R s t) {α : Type} (o : Option α) (pl : Packet)
    {f g : α → State} (hfg : ∀ a, R (f a) (g a)) : R (requireOperands o pl s f) (requireOperands o pl t g) := by
  cases o with
  | none => exact c.raise _ h
  | some a => exact hfg a

theorem OpsKeep.passTime (c : OpsKeep R) (h : R s t) : R s.passTime t.passTime := by
  unfold State.passTime
  rw [← c.todo h]
  split
  · exact c.withTodo _ h
  · exact h

/-- The same command, accepted in related states, leads to related states. -/
theorem OpsKeep.exec (c : OpsKeep R) (h : R s t) (i : Instr) :
    ∃ s' t', exec i s = .next s' ∧ exec i t = .next t' ∧ R s' t' := by
  cases i with
  | stat pl => exact ⟨_, _, rfl, rfl, c.requireOperands h _ _ fun _ => c.kv h ▸ c.respondOk _ h⟩
  | ldkey pl =>
    simp only [Machine.exec, execLdkey]
    cases keyOfPayload pl with
    | some k => exact ⟨_, _, rfl, rfl, c.respondOk _ (c.loadKey k h)⟩
    | none => exact ⟨_, _, rfl, rfl, c.raise _ (c.eraseKey h)⟩
  | clrkey pl => exact ⟨_, _, rfl, rfl, c.requireOperands h _ _ fun _ => c.respondOk _ (c.eraseKey h)⟩
  | encblk pl =>
    exact ⟨_, _, rfl, rfl, c.requireKey h (c.requireOperands h _ _ fun v => c.beginBlock _ v _ (.inl rfl) h)⟩
  | decblk pl =>
    exact ⟨_, _, rfl, rfl, c.requireKey h (c.requireOperands h _ _ fun v => c.beginBlock _ v _ (.inr rfl) h)⟩
  | enctail pl =>
    exact ⟨_, _, rfl, rfl, c.requireKey h (c.requireOperands h _ _ fun a => c.beginTail _ a (.inl rfl) h)⟩
  | dectail pl =>
    exact ⟨_, _, rfl, rfl, c.requireKey h (c.requireOperands h _ _ fun a => c.beginTail _ a (.inr rfl) h)⟩

theorem OpsKeep.accept (c : OpsKeep R) (h : R s t) (p : Packet) :
    ∃ s' t', accept p s = .next s' ∧ accept p t = .next t' ∧ R s' t' := by
  unfold Machine.accept
  cases decode p with
  | error r => exact ⟨_, _, rfl, rfl, c.raise _ h⟩
  | ok i => exact c.exec h i

/-- Where neither reset nor the phase has a step to make, CORE waits (R71, R74, R77). -/
theorem step_of_wait (hr : ∀ rest, s.todo ≠ .reset :: rest)
    (hw : (s.ph = .idle ∧ ∀ p rest, s.todo ≠ .send p :: rest) ∨ (s.ph = .resp ∧ ∀ rest, s.todo ≠ .take :: rest)) :
    step s = .next s.passTime := by
  rw [step_of_no_reset hr, phaseStep]
  obtain ⟨hp, hw⟩ | ⟨hp, hw⟩ := hw <;> rw [hp]
  · obtain ⟨p, rest, e, -⟩ | ⟨-, e⟩ := idleStep_cases s
    · exact absurd e (hw p rest)
    · exact e
  · obtain ⟨rest, e, -⟩ | ⟨-, e⟩ := respStep_cases s
    · exact absurd e (hw rest)
    · exact e

/-- The steps `OpsKeep.step` leaves out: a transform runs and reset is not asserted. -/
theorem run_and_no_reset_of_not (hw : ¬(s.ph ≠ .run ∨ s.todo.head? = some .reset)) :
    s.ph = .run ∧ ∀ rest, s.todo ≠ .reset :: rest := by
  obtain ⟨hp, hr⟩ := not_or.mp hw
  exact ⟨not_not.mp hp, fun rest e => hr (by simp [e])⟩

/-- Related states step to related states in `IDLE`, in `RESP`, and under reset. -/
theorem OpsKeep.step (c : OpsKeep R) (h : R s t) (hp : s.ph ≠ .run ∨ s.todo.head? = some .reset) :
    ∃ s' t', step s = .next s' ∧ step t = .next t' ∧ R s' t' := by
  obtain ⟨rest, e, -⟩ | ⟨hr, -⟩ := resetStep_cases s
  · exact ⟨_, _, step_of_reset e, step_of_reset (c.todo h ▸ e), c.resetRegisters (c.withTodo rest h)⟩
  have wait (hw : (s.ph = .idle ∧ ∀ p rest, s.todo ≠ .send p :: rest) ∨
      (s.ph = .resp ∧ ∀ rest, s.todo ≠ .take :: rest)) : ∃ s' t', Machine.step s = .next s' ∧
      Machine.step t = .next t' ∧ R s' t' :=
    ⟨_, _, step_of_wait hr hw, step_of_wait (c.todo h ▸ hr) (c.todo h ▸ c.ph h ▸ hw), c.passTime h⟩
  cases hph : s.ph with
  | idle =>
    obtain ⟨p, rest, e, -⟩ | ⟨hs, -⟩ := idleStep_cases s
    · rw [step_of_accept hph e, step_of_accept (c.ph h ▸ hph) (c.todo h ▸ e)]
      exact c.accept (c.withTodo rest h) p
    · exact wait (.inl ⟨hph, hs⟩)
  | run =>
    obtain hn | hres := hp
    · exact absurd hph hn
    · obtain ⟨rest, e⟩ := List.head?_eq_some_iff.mp hres
      exact absurd e (hr rest)
  | resp =>
    obtain ⟨rest, e, -⟩ | ⟨ht, -⟩ := respStep_cases s
    · exact ⟨_, _, step_of_take hph e, step_of_take (c.ph h ▸ hph) (c.todo h ▸ e), c.takeResponse (c.withTodo rest h)⟩
    · exact wait (.inr ⟨hph, ht⟩)

end Sys2Proof.Machine
end

section
/-! PROOFS. The transient registers never show (spec/10_state.md R43, spec/20_memory.md R64, R68): two states that look
alike, and while a transform runs agree in the registers it reads, stay so. -/

namespace Sys2Proof.Machine

/-- The registers the running transform reads: `OP`, `RND`, and `V0`, `V1`, `SUM` or `POS`, `S` (R28, R75). -/
def State.working (s : State) : Op × BitVec 6 × (BlockState ⊕ BitVec 3 × Byte) :=
  (s.op, s.rnd, match s.op with
    | .encblk | .decblk => .inl s.blockState
    | .enctail | .dectail => .inr (s.pos, s.sAcc))

/-- Two states that no host can tell apart, now or later: all that is visible agrees, and in `RUN`, where a step is still
enabled, the working registers do. -/
structure State.LooksLike (s t : State) : Prop where
  k : s.k = t.k
  kv : s.kv = t.kv
  ph : s.ph = t.ph
  rsp : s.rsp = t.rsp
  todo : s.todo = t.todo
  delivered : s.delivered = t.delivered
  rnd_le : s.ph = .run → s.rnd.toNat ≤ 32
  working : s.ph = .run → s.working = t.working

section
variable {s t : State}

theorem State.LooksLike.visible (h : s.LooksLike t) : s.visible = t.visible := by
  simp [State.visible, h.k, h.kv, h.ph, h.rsp, h.todo, h.delivered]

/-- Outside `RUN`, what is visible is all that counts. -/
theorem State.looksLike_of_visible (h : s.visible = t.visible) (hp : s.ph ≠ .run) : s.LooksLike t := by
  simp only [State.visible, Prod.mk.injEq] at h
  obtain ⟨hk, hkv, hph, hrsp, htodo, hdel⟩ := h
  exact ⟨hk, hkv, hph, hrsp, htodo, hdel, fun h => absurd h hp, fun h => absurd h hp⟩

/-- No operation reads a transient register but a round and the finish, and the start of a transform writes all that these
read. -/
theorem looksLike_opsKeep : OpsKeep State.LooksLike where
  kv h := h.kv
  ph h := h.ph
  todo h := h.todo
  withTodo _ h := { h with todo := rfl }
  respondOk _ h := { h with ph := rfl, rsp := rfl, rnd_le := by simp, working := by simp }
  raise _ h := { h with ph := rfl, rsp := rfl, rnd_le := by simp, working := by simp }
  takeResponse h :=
    { h with ph := rfl, rsp := rfl, delivered := by simp [h.delivered, h.rsp], rnd_le := by simp, working := by simp }
  loadKey _ h := { h with k := rfl, kv := rfl }
  eraseKey h := { h with k := rfl, kv := rfl }
  resetRegisters h := ⟨rfl, rfl, rfl, rfl, h.todo, h.delivered, by simp [State.reset], by simp [State.reset]⟩
  beginBlock op _ _ hop h :=
    { h with
      ph := rfl
      rnd_le := by simp
      working := by obtain rfl | rfl := hop <;> simp [State.working, State.blockState] }
  beginTail op _ hop h :=
    { h with
      ph := rfl
      rnd_le := by simp
      working := by obtain rfl | rfl := hop <;> simp [State.working] }

theorem State.working_blockState (hw : s.working = t.working) (ho : t.op = .encblk ∨ t.op = .decblk) :
    s.blockState = t.blockState := by
  have hop : s.op = t.op := congrArg Prod.fst hw
  obtain ho | ho := ho <;> simpa [State.working, hop, ho] using congrArg (·.2.2) hw

theorem State.working_tail (hw : s.working = t.working) (ho : t.op = .enctail ∨ t.op = .dectail) :
    s.pos = t.pos ∧ s.sAcc = t.sAcc := by
  have hop : s.op = t.op := congrArg Prod.fst hw
  obtain ho | ho := ho <;> simpa [State.working, hop, ho] using congrArg (·.2.2) hw

/-- What a round does to the working registers, by transform (R75). -/
theorem roundStep_working_eq (s : State) : (roundStep s).working = (s.op, s.rnd + 1#6, match s.op with
    | .encblk => .inl (encRound s.k s.blockState)
    | .decblk => .inl (decRound s.k s.blockState)
    | .enctail => .inr (s.pos, encTailRound s.k s.pos s.sAcc)
    | .dectail => .inr (s.pos, decTailRound s.k s.pos s.sAcc)) := by
  cases h : s.op <;> simp [State.working, roundStep, roundOf, State.blockState, State.withBlockState, h]

/-- So a round reads the working registers and the key, and nothing else. -/
theorem roundStep_working_congr (hk : s.k = t.k) (hw : s.working = t.working) :
    (roundStep s).working = (roundStep t).working := by
  have hop : s.op = t.op := congrArg Prod.fst hw
  have hrnd : s.rnd = t.rnd := congrArg (·.2.1) hw
  rw [roundStep_working_eq, roundStep_working_eq, hop, hrnd, hk]
  cases h : t.op with
  | encblk => rw [State.working_blockState hw (.inl h)]
  | decblk => rw [State.working_blockState hw (.inr h)]
  | enctail => simp [State.working_tail hw (.inl h)]
  | dectail => simp [State.working_tail hw (.inr h)]

theorem State.blockState_eq_iff : s.blockState = t.blockState ↔ s.v0 = t.v0 ∧ s.v1 = t.v1 ∧ s.sum = t.sum := by
  simp [State.blockState]

/-- The finish step packs working registers and nothing else (R76). -/
theorem resultBody_congr (hw : s.working = t.working) : resultBody s = resultBody t := by
  have hop : s.op = t.op := congrArg Prod.fst hw
  cases h : t.op with
  | encblk => simp [resultBody, hop, h, State.blockState_eq_iff.mp (State.working_blockState hw (.inl h))]
  | decblk => simp [resultBody, hop, h, State.blockState_eq_iff.mp (State.working_blockState hw (.inr h))]
  | enctail => simp [resultBody, hop, h, State.working_tail hw (.inl h)]
  | dectail => simp [resultBody, hop, h, State.working_tail hw (.inr h)]

theorem State.LooksLike.roundStep (h : s.LooksLike t) (hp : s.ph = .run) (hn : s.rnd.toNat < 32) :
    (roundStep s).LooksLike (roundStep t) where
  k := by simp [h.k]
  kv := by simp [h.kv]
  ph := by simp [h.ph]
  rsp := by simp [h.rsp]
  todo := by simp [h.todo]
  delivered := by simp [h.delivered]
  rnd_le _ := by rw [roundStep_rnd, rnd_succ hn]; omega
  working _ := roundStep_working_congr h.k (h.working hp)

theorem State.LooksLike.finishStep (h : s.LooksLike t) (hp : s.ph = .run) : (finishStep s).LooksLike (finishStep t) :=
  { h with
    ph := rfl
    rsp := by simp [resultBody_congr (h.working hp)]
    rnd_le := by simp
    working := by simp }

/-- States that look alike make a step, and look alike after it. -/
theorem State.LooksLike.step (h : s.LooksLike t) :
    ∃ s' t', step s = .next s' ∧ step t = .next t' ∧ s'.LooksLike t' := by
  by_cases hw : s.ph ≠ .run ∨ s.todo.head? = some .reset
  · exact looksLike_opsKeep.step h hw
  obtain ⟨hp, hr⟩ := run_and_no_reset_of_not hw
  have hpass := looksLike_opsKeep.passTime h
  have hpt : t.ph = .run := h.ph ▸ hp
  have hrt : ∀ rest, t.todo ≠ .reset :: rest := h.todo ▸ hr
  have hrnd : t.rnd = s.rnd := (congrArg (·.2.1) (h.working hp)).symm
  obtain hn | hn := (h.rnd_le hp).lt_or_eq
  · exact ⟨_, _, step_of_round hp hn hr, step_of_round hpt (hrnd ▸ hn) hrt,
      hpass.roundStep (by simp [hp]) (by simpa using hn)⟩
  · exact ⟨_, _, step_of_finish hp hn hr, step_of_finish hpt (hrnd ▸ hn) hrt, hpass.finishStep (by simp [hp])⟩

theorem State.LooksLike.runSteps (h : s.LooksLike t) (n : Nat) :
    ∃ s' t', runSteps n s = .next s' ∧ runSteps n t = .next t' ∧ s'.LooksLike t' := by
  induction n generalizing s t with
  | zero => exact ⟨s, t, rfl, rfl, h⟩
  | succ n ih =>
    obtain ⟨s', t', hs, ht, h'⟩ := h.step
    rw [runSteps_succ_of_next n hs, runSteps_succ_of_next n ht]
    exact ih h'

end

/-- Settles O54: `IDLE` states with the same visible part look alike, and runs of any length keep that. -/
theorem transientsNeverShow : Obligations.TransientsNeverShow := by
  unfold Obligations.TransientsNeverShow
  intro s₁ s₂ n hp hv
  obtain ⟨t₁, t₂, h₁, h₂, h⟩ := (State.looksLike_of_visible hv (by simp [hp])).runSteps n
  exact ⟨t₁, t₂, h₁, h₂, h.visible⟩

end Sys2Proof.Machine
end

section
/-! PROOFS. The key is write-only (spec/10_state.md R21, spec/45_system.md R221, spec/60_exceptions.md R250). -/

namespace Sys2Proof.Machine

/-- The two states are equal but for the key words. -/
def State.EqButKey (s t : State) : Prop := t = { s with k := t.k }

/-- No operation but a round reads a key word. -/
theorem eqButKey_opsKeep : OpsKeep State.EqButKey where
  kv h := by rw [h]
  ph h := by rw [h]
  todo h := by rw [h]
  withTodo _ h := by rw [h]; rfl
  respondOk _ h := by rw [h]; rfl
  raise _ h := by rw [h]; rfl
  takeResponse h := by rw [h]; rfl
  loadKey _ h := by rw [h]; rfl
  eraseKey h := by rw [h]; rfl
  resetRegisters h := by rw [h]; rfl
  beginBlock _ _ _ _ h := by rw [h]; rfl
  beginTail _ _ _ h := by rw [h]; rfl

/-- What a round does to the accumulator does not depend on the key (R153). -/
theorem roundStep_withKey_sum (s : State) (k : KeyRegs) : (roundStep { s with k := k }).sum = (roundStep s).sum := by
  rw [roundStep_sum_eq, roundStep_sum_eq]

/-- A finish step packs the same response whatever the key words, and leaves them (R76). -/
theorem finishStep_withKey (s : State) (k : KeyRegs) : finishStep { s with k := k } = { finishStep s with k := k } := rfl

/-- R250: to a packet that is no performed transform the response is an error's or a key command's, and these read `KV`
at most. -/
theorem answer_response_withKey (k k' : KeyRegs) (kv : Bool) (p : Packet)
    (hp : ∀ i, verdict kv p = .ok i → i.opcode.needsKey = false) :
    (answer ⟨k', kv⟩ p).map (·.2) = (answer ⟨k, kv⟩ p).map (·.2) := by
  cases hv : verdict kv p with
  | error e => simp [answer, hv]
  | ok i =>
    have hi := hp i hv
    simp only [answer, hv]
    cases i with
    | stat pl => rfl
    | ldkey pl => rfl
    | clrkey pl => rfl
    | encblk pl => cases hi
    | decblk pl => cases hi
    | enctail pl => cases hi
    | dectail pl => cases hi

/-- Settles O55: outside `RUN` no operation reads a key word; a round leaves everything but `V0`, `V1` and `S` independent
of it; the finish packs those registers only. -/
theorem keyIsNotReadBack : Obligations.KeyIsNotReadBack := by
  unfold Obligations.KeyIsNotReadBack
  refine ⟨fun s k' hle => ?_, answer_response_withKey⟩
  by_cases hw : s.ph ≠ .run ∨ s.todo.head? = some .reset
  · obtain ⟨t, t', ht, ht', h⟩ := eqButKey_opsKeep.step (s := s) (t := { s with k := k' }) rfl hw
    exact ⟨t, t', ht, ht', by rw [h], by rw [h], fun _ => h⟩
  obtain ⟨hp, hr⟩ := run_and_no_reset_of_not hw
  obtain hn | hn := (hle hp).lt_or_eq
  · refine ⟨_, _, step_of_round hp hn hr, step_of_round (s := { s with k := k' }) hp hn hr, ?_⟩
    rw [State.passTime_withKey]
    refine ⟨by simp, by rw [roundStep_withKey_sum]; simp, fun h => absurd h ?_⟩
    rintro (h | h | h)
    · exact h hp
    · omega
    · exact hw (.inr h)
  · refine ⟨_, _, step_of_finish hp hn hr, step_of_finish (s := { s with k := k' }) hp hn hr, ?_⟩
    rw [State.passTime_withKey, finishStep_withKey]
    exact ⟨rfl, rfl, fun _ => rfl⟩

end Sys2Proof.Machine
end

section
/-! PROOFS. The block buffer and the payload of a block command (spec/20_memory.md R53, R57, spec/41_word_codec.md R125,
spec/42_block_transform.md R152). -/

namespace Sys2Proof.Machine

/-- R53, R57: the block buffer is `V0`, then `V1`, as a byte string. -/
theorem wordsToBytes_block (s : State) : wordsToBytes [s.v0, s.v1] = List.ofFn s.blockByte := rfl

/-- R125: the two words of a block operand, as bytes, are the payload again. -/
theorem wordsToBytes_blockOfPayload {pl : Packet} {v : Word × Word} (h : blockOfPayload pl = some v) :
    wordsToBytes [v.1, v.2] = pl := by
  have hlen : pl.length = 8 := (blockOfPayload_isSome_iff pl).mp (by simp [h])
  match pl, hlen with
  | [_, _, _, _, _, _, _, _], _ =>
    rw [blockOfPayload_bytes] at h
    cases h
    simp [unpackWord_packWord]

/-- R150, R151: a block command that goes to `RUN` has put its block operand into `V0`, `V1`. -/
theorem blockOfPayload_of_exec_run {i : Instr} {s t : State} (hi : i.opcode = .encblk ∨ i.opcode = .decblk)
    (h : exec i s = .next t) (hrun : t.ph = .run) : blockOfPayload i.payload = some (t.v0, t.v1) := by
  obtain ⟨t', e, ht⟩ := exec_cases i s
  cases e.symm.trans h
  obtain ⟨_, -, -, rfl⟩ | ⟨_, -, -, rfl⟩ | ⟨_, _, -, -, rfl⟩ | ⟨-, rfl⟩ | ⟨-, rfl⟩ | ⟨_, _, rfl, -, hv, rfl⟩ |
    ⟨_, _, rfl, -, hv, rfl⟩ | ⟨_, _, rfl, -, -, rfl⟩ | ⟨_, _, rfl, -, -, rfl⟩ := ht
  · cases hrun
  · cases hrun
  · cases hrun
  · cases hrun
  · cases hrun
  · exact hv
  · exact hv
  · simp [Instr.opcode] at hi
  · simp [Instr.opcode] at hi

/-- Settles O32: the payload is the block operand's words as bytes, and these are the buffer in register order. -/
theorem blockBufferInSuppliedOrder : Obligations.BlockBufferInSuppliedOrder := by
  unfold Obligations.BlockBufferInSuppliedOrder
  refine ⟨fun s t i hi h hrun => ?_, wordsToBytes_block⟩
  have hv : blockOfPayload i.payload = some (t.v0, t.v1) := blockOfPayload_of_exec_run hi h hrun
  exact (wordsToBytes_blockOfPayload hv).symm.trans (wordsToBytes_block t)

end Sys2Proof.Machine
end

section
/-! PROOFS. The decoder and the encoder (spec/30_encoding.md R72, R73, R84, R86), and the bytes of the error responses
(R80 to R82). -/

namespace Sys2Proof.Machine

/-! ### The opcode map -/

/-- R73: the bytes of the seven opcodes, in the table's order. -/
theorem opcodeBytes_eq :
    Opcode.all.map Opcode.byte = [0x00#8, 0x01#8, 0x02#8, 0x10#8, 0x11#8, 0x20#8, 0x21#8] := rfl

/-- R84: the illegal bytes are those of no opcode. -/
theorem ofByte_eq_none_iff (b : Byte) : Opcode.ofByte b = none ↔ b ∉ Opcode.all.map Opcode.byte := by
  simp [Opcode.ofByte]

/-! ### What the decoder answers -/

/-- R72, R86: the decoder reads back the command that was encoded. -/
theorem decode_encode (i : Instr) : decode (encode i) = .ok i := by
  simp [decode, encode]

theorem decode_eq_ok_iff (p : Packet) (i : Instr) : decode p = .ok i ↔ encode i = p := by
  constructor
  · exact encode_of_decode
  · rintro rfl
    exact decode_encode i

theorem decode_eq_emptyPacket_iff (p : Packet) : decode p = .error .emptyPacket ↔ p = [] := by
  cases p with
  | nil => simp [decode_nil]
  | cons b pl => obtain ⟨o, -, e⟩ | ⟨-, e⟩ := decode_cons_cases b pl <;> simp [e]

theorem decode_eq_illegalOpcode_iff (p : Packet) (b : Byte) :
    decode p = .error (.illegalOpcode b) ↔ p.head? = some b ∧ b ∉ Opcode.all.map Opcode.byte := by
  rw [← ofByte_eq_none_iff]
  cases p with
  | nil => simp [decode_nil]
  | cons c pl =>
    obtain ⟨o, rfl, e⟩ | ⟨hc, e⟩ := decode_cons_cases c pl
    · simp only [e, reduceCtorEq, List.head?_cons, Option.some.injEq, false_iff, not_and]
      rintro rfl
      simp
    · simp only [e, Except.error.injEq, Reject.illegalOpcode.injEq, List.head?_cons, Option.some.injEq, iff_self_and]
      rintro rfl
      exact hc

/-- Settles O34: the two directions and the two rejections, one lemma each; the opcode bytes by the opcode map. -/
theorem decodeIsTheInverseOfEncode : Obligations.DecodeIsTheInverseOfEncode := by
  unfold Obligations.DecodeIsTheInverseOfEncode
  refine ⟨decode_eq_ok_iff, decode_eq_emptyPacket_iff, fun p b => ?_, fun i => ?_⟩
  · rw [← opcodeBytes_eq]
    exact decode_eq_illegalOpcode_iff p b
  · cases i <;> rfl

/-- Settles O33: each packet is the encoding of its command; neither of the last two has an opcode byte in front. -/
theorem packetsDecodeAsWritten : Obligations.PacketsDecodeAsWritten := by
  unfold Obligations.PacketsDecodeAsWritten
  have hillegal : (0x30#8 : Byte) ∉ Opcode.all.map Opcode.byte := by decide
  exact ⟨decode_encode (.stat _), decode_encode (.clrkey _), decode_encode (.ldkey _), decode_encode (.encblk _),
    decode_encode (.decblk _), decode_encode (.enctail _), decode_encode (.dectail _), decode_nil,
    (decode_eq_illegalOpcode_iff _ _).mpr ⟨rfl, hillegal⟩⟩

/-! ### The error responses -/

/-- R82: an info byte that counts payload bytes counts up to 255. -/
theorem saturate_toNat (n : Nat) : (saturate n).toNat = min n 255 := by
  rw [saturate, BitVec.toNat_ofNat]
  omega

/-- Settles O38: each packet is its status code and its info byte; the count saturates. -/
theorem errorPacketBytes : Obligations.ErrorPacketBytes := by
  unfold Obligations.ErrorPacketBytes
  intro n b
  refine ⟨rfl, rfl, rfl, rfl, rfl, rfl, ?_⟩
  exact (saturate_toNat n).trans (min_def n 255)

end Sys2Proof.Machine
end

section
/-! PROOFS. The accept step of a packet (spec/30_encoding.md R74, R78): what it answers line by line of the decode
order. -/

namespace Sys2Proof.Machine

theorem accept_of_decode {p : Packet} {i : Instr} (h : decode p = .ok i) (s : State) : accept p s = exec i s := by
  simp [accept, h]

theorem accept_of_reject {p : Packet} {r : Reject} (h : decode p = .error r) (s : State) :
    accept p s = .next (raise r.toError s) := by
  simp [accept, h]

/-- A numbered word that decodes does so by its packet. -/
theorem decode_tablePacket {nbits w : Nat} {i : Instr} (h : decodeTableWord nbits w = some i) :
    decode (tablePacket nbits w) = .ok i := by
  unfold decodeTableWord at h
  split at h
  · rename_i j hj
    cases h
    exact hj
  · cases h

/-- Settles O35: an accept step on a packet that decodes is the command's meaning. -/
theorem stepRunsTheDecodedCommand : Obligations.StepRunsTheDecodedCommand := by
  unfold Obligations.StepRunsTheDecodedCommand
  constructor
  · intro s p rest i hp hs hi
    exact (step_of_accept hp hs).trans (accept_of_decode hi _)
  · intro s nbits w i hi
    have hs : (s.withFetchWord nbits w).todo = .send (tablePacket nbits w) :: s.todo := rfl
    exact (step_of_accept rfl hs).trans (accept_of_decode (decode_tablePacket hi) _)

end Sys2Proof.Machine
end

section
/-! PROOFS. The decode order of the accept step (spec/30_encoding.md R78): the error lines, then what a command that passes
them does, compared with the atomic reading (R89). -/

namespace Sys2Proof.Machine

/-! ### The error lines of a command -/

section
variable {α : Type} {s : State} {operands : Option α} {pl : Packet} {perform : α → State}

/-- R78 line 5 for a transform. -/
theorem transform_of_no_operands (hk : s.kv = true) (ho : operands = none) :
    requireKey s (requireOperands operands pl s perform) = raise (.badLength pl.length) s := by
  rw [requireKey_of_key hk, ho]
  rfl

/-- R78 line 6 for a transform. -/
theorem transform_of_operands {a : α} (hk : s.kv = true) (ho : operands = some a) :
    requireKey s (requireOperands operands pl s perform) = perform a := by
  rw [requireKey_of_key hk, ho]
  rfl

end

/-- R78 line 3, R131. -/
theorem exec_ldkey_of_length_ne {pl : Packet} (hn : pl.length ≠ 16) (s : State) :
    exec (.ldkey pl) s = .next (raise (.invalidKeyLength pl.length) (eraseKey s)) := by
  simp [exec, execLdkey, keyOfPayload_of_length_ne hn]

/-- R78 line 4, R234: it comes before the question of the payload. -/
theorem exec_of_no_key {i : Instr} {s : State} (hi : i.opcode.needsKey = true) (hk : s.kv = false) :
    exec i s = .next (raise .noKey s) := by
  cases i with
  | stat pl => cases hi
  | ldkey pl => cases hi
  | clrkey pl => cases hi
  | encblk pl => exact congrArg _ (requireKey_of_no_key hk _)
  | decblk pl => exact congrArg _ (requireKey_of_no_key hk _)
  | enctail pl => exact congrArg _ (requireKey_of_no_key hk _)
  | dectail pl => exact congrArg _ (requireKey_of_no_key hk _)

/-- R78 line 5, R235. -/
theorem exec_of_length_ne {i : Instr} {s : State} (hi : i.opcode ≠ .ldkey) (hk : i.opcode.needsKey = true → s.kv = true)
    (hn : i.payload.length ≠ i.opcode.payloadLen) :
    exec i s = .next (raise (.badLength i.payload.length) s) := by
  cases i with
  | stat pl =>
    cases pl with
    | nil => exact absurd rfl hn
    | cons b pl => rfl
  | ldkey pl => exact absurd rfl hi
  | clrkey pl =>
    cases pl with
    | nil => exact absurd rfl hn
    | cons b pl => rfl
  | encblk pl => exact congrArg _ (transform_of_no_operands (hk rfl) (blockOfPayload_of_length_ne hn))
  | decblk pl => exact congrArg _ (transform_of_no_operands (hk rfl) (blockOfPayload_of_length_ne hn))
  | enctail pl => exact congrArg _ (transform_of_no_operands (hk rfl) (tailOfPayload_of_length_ne hn))
  | dectail pl => exact congrArg _ (transform_of_no_operands (hk rfl) (tailOfPayload_of_length_ne hn))

/-! ### The commands that are performed -/

/-- R74: the accept step from `s` ended in `RESP` with the session and the response of the atomic reading `a`; the host's
side is as before. -/
structure State.Answers (s t : State) (a : Option (Session × Packet)) : Prop where
  ph : t.ph = .resp
  todo : t.todo = s.todo
  delivered : t.delivered = s.delivered
  reading : a = some (t.session, t.rsp)

/-- The result of the running transform after `n` more rounds (R146, R149, R174, R175). -/
def State.resultAfter (n : Nat) (s : State) : Packet :=
  match s.op with
  | .encblk => wordsToBytes [(rounds (encRound s.k) n s.blockState).v0, (rounds (encRound s.k) n s.blockState).v1]
  | .decblk => wordsToBytes [(rounds (decRound s.k) n s.blockState).v0, (rounds (decRound s.k) n s.blockState).v1]
  | .enctail => [rounds (encTailRound s.k s.pos) n s.sAcc]
  | .dectail => [rounds (decTailRound s.k s.pos) n s.sAcc]

/-- R74: the accept step from `s` ended in `RUN` at round 0, `TIMES` rounds away from the response of the atomic reading
`a`; the session and the host's side are as before. -/
structure State.Begins (s t : State) (a : Option (Session × Packet)) : Prop where
  ph : t.ph = .run
  rnd : t.rnd = 0#6
  todo : t.todo = s.todo
  delivered : t.delivered = s.delivered
  session : t.session = s.session
  reading : a = some (s.session, okPacket (t.resultAfter cfg.times))

/-- R78 line 6: a well-sized system command or key load. -/
theorem exec_answers {i : Instr} (s : State) (hi : i.opcode.needsKey = false)
    (hn : i.payload.length = i.opcode.payloadLen) : ∃ t, exec i s = .next t ∧ s.Answers t (performAtomic s.session i) := by
  cases i with
  | stat pl =>
    obtain rfl : pl = [] := List.eq_nil_of_length_eq_zero hn
    exact ⟨_, rfl, rfl, rfl, rfl, rfl⟩
  | ldkey pl =>
    obtain ⟨k, hk⟩ := Option.isSome_iff_exists.mp ((keyOfPayload_isSome_iff pl).mpr hn)
    refine ⟨respondOk [] (loadKey k s), ?_, rfl, rfl, rfl, congrArg (Option.map _) hk⟩
    simp [exec, execLdkey, hk]
  | clrkey pl =>
    obtain rfl : pl = [] := List.eq_nil_of_length_eq_zero hn
    exact ⟨_, rfl, rfl, rfl, rfl, rfl⟩
  | encblk pl => cases hi
  | decblk pl => cases hi
  | enctail pl => cases hi
  | dectail pl => cases hi

/-- R194: the block function on a payload that is a block. -/
theorem blockBytes_of_operand (f : Word × Word → Word × Word) {blk : Packet} {v : Word × Word}
    (hv : blockOfPayload blk = some v) : blockBytes f blk = some (wordsToBytes [(f v).1, (f v).2]) :=
  congrArg (Option.map _) hv

/-- R78 line 6: a well-sized transform with a key. -/
theorem exec_begins {i : Instr} {s : State} (hi : i.opcode.needsKey = true) (hk : s.kv = true)
    (hn : i.payload.length = i.opcode.payloadLen) : ∃ t, exec i s = .next t ∧ s.Begins t (performAtomic s.session i) := by
  cases i with
  | stat pl => cases hi
  | ldkey pl => cases hi
  | clrkey pl => cases hi
  | encblk pl =>
    obtain ⟨v, hv⟩ := Option.isSome_iff_exists.mp ((blockOfPayload_isSome_iff pl).mpr hn)
    exact ⟨beginBlock .encblk v 0#32 s, congrArg _ (transform_of_operands hk hv), rfl, rfl, rfl, rfl, rfl,
      congrArg (Option.map _) (blockBytes_of_operand _ hv)⟩
  | decblk pl =>
    obtain ⟨v, hv⟩ := Option.isSome_iff_exists.mp ((blockOfPayload_isSome_iff pl).mpr hn)
    exact ⟨beginBlock .decblk v cfg.sum0 s, congrArg _ (transform_of_operands hk hv), rfl, rfl, rfl, rfl, rfl,
      congrArg (Option.map _) (blockBytes_of_operand _ hv)⟩
  | enctail pl =>
    obtain ⟨a, ha⟩ := Option.isSome_iff_exists.mp ((tailOfPayload_isSome_iff pl).mpr hn)
    exact ⟨beginTail .enctail a s, congrArg _ (transform_of_operands hk ha), rfl, rfl, rfl, rfl, rfl,
      congrArg (Option.map _) ha⟩
  | dectail pl =>
    obtain ⟨a, ha⟩ := Option.isSome_iff_exists.mp ((tailOfPayload_isSome_iff pl).mpr hn)
    exact ⟨beginTail .dectail a s, congrArg _ (transform_of_operands hk ha), rfl, rfl, rfl, rfl, rfl,
      congrArg (Option.map _) ha⟩

/-- R80: a command that is performed is answered `OK`. -/
theorem performAtomic_ok {c c' : Session} {i : Instr} {r : Packet} (h : performAtomic c i = some (c', r)) :
    r.head? = some Status.ok.code := by
  have mapped {α : Type} {o : Option α} {f : α → Session} {body : α → Packet}
      (h : o.map (fun a => (f a, okPacket (body a))) = some (c', r)) : r.head? = some Status.ok.code := by
    obtain ⟨a, -, e⟩ := Option.map_eq_some_iff.mp h
    cases e
    rfl
  cases i with
  | stat pl => cases h; rfl
  | ldkey pl => exact mapped h
  | clrkey pl => cases h; rfl
  | encblk pl => exact mapped h
  | decblk pl => exact mapped h
  | enctail pl => exact mapped h
  | dectail pl => exact mapped h

/-- R78 line 6: a well-sized command, with a key where it needs one, goes to `RUN` or to an `OK` response. -/
theorem exec_performed {i : Instr} {s : State} (hn : i.payload.length = i.opcode.payloadLen)
    (hk : i.opcode.needsKey = true → s.kv = true) :
    ∃ t, exec i s = .next t ∧ (t.ph = .run ∨ t.ph = .resp ∧ t.rsp.head? = some Status.ok.code) := by
  cases hi : i.opcode.needsKey with
  | false =>
    obtain ⟨t, e, ht⟩ := exec_answers s hi hn
    exact ⟨t, e, .inr ⟨ht.ph, performAtomic_ok ht.reading⟩⟩
  | true =>
    obtain ⟨t, e, ht⟩ := exec_begins hi (hk hi) hn
    exact ⟨t, e, .inl ht.ph⟩

/-! ### The packet, line by line -/

theorem decode_opcode (o : Opcode) (pl : Packet) : decode (o.byte :: pl) = .ok (o.instr pl) := by
  simp [decode]

section
variable {s : State} {rest : List HostAct} {o : Opcode} {pl : Packet} (hp : s.ph = .idle)
  (hs : s.todo = .send (o.byte :: pl) :: rest)
include hp hs

theorem step_of_opcode : step s = exec (o.instr pl) (s.withTodo rest) :=
  (step_of_accept hp hs).trans (accept_of_decode (decode_opcode o pl) _)

theorem step_of_no_key (hneed : o.needsKey = true) (hk : s.kv = false) :
    step s = .next (raise .noKey (s.withTodo rest)) :=
  (step_of_opcode hp hs).trans (exec_of_no_key (by simpa using hneed) hk)

theorem step_of_length_ne (ho : o ≠ .ldkey) (hk : o.needsKey = true → s.kv = true) (hn : pl.length ≠ o.payloadLen) :
    step s = .next (raise (.badLength pl.length) (s.withTodo rest)) := by
  rw [step_of_opcode hp hs, exec_of_length_ne (by simpa using ho) (by simpa using hk) (by simpa using hn),
    Opcode.instr_payload]

theorem step_performed (hk : o.needsKey = true → s.kv = true) (hn : pl.length = o.payloadLen) :
    ∃ i t, decode (o.byte :: pl) = .ok i ∧ step s = exec i (s.withTodo rest) ∧ step s = .next t ∧
      (t.ph = .run ∨ t.ph = .resp ∧ t.rsp.head? = some Status.ok.code) := by
  have hstep := step_of_opcode hp hs
  obtain ⟨t, e, ht⟩ := exec_performed (i := o.instr pl) (s := s.withTodo rest) (by simpa using hn) (by simpa using hk)
  exact ⟨_, t, decode_opcode o pl, hstep, hstep.trans e, ht⟩

end

/-- Settles O36: each line by the lemma of its error or by `step_performed`, once the opcode byte is read. -/
theorem decodeOrderOfAccept : Obligations.DecodeOrderOfAccept := by
  unfold Obligations.DecodeOrderOfAccept
  intro s rest p hp hs
  have reject {r : Reject} (h : decode p = .error r) : step s = .next (raise r.toError (s.withTodo rest)) :=
    (step_of_accept hp hs).trans (accept_of_reject h _)
  refine ⟨fun hempty => reject ((decode_eq_emptyPacket_iff p).mpr hempty), ?_⟩
  rintro op pl rfl
  refine ⟨?illegal, ?keyLength, ?noKey, ?badLength, ?performed⟩
  case illegal =>
    intro hop
    rw [← opcodeBytes_eq] at hop
    exact reject ((decode_eq_illegalOpcode_iff _ op).mpr ⟨rfl, hop⟩)
  case keyLength =>
    rintro rfl hn
    exact (step_of_opcode (o := .ldkey) hp hs).trans (exec_ldkey_of_length_ne hn _)
  case noKey =>
    simp only [List.mem_cons, List.not_mem_nil, or_false]
    rintro (rfl | rfl | rfl | rfl) hk
    · exact step_of_no_key (o := .encblk) hp hs rfl hk
    · exact step_of_no_key (o := .decblk) hp hs rfl hk
    · exact step_of_no_key (o := .enctail) hp hs rfl hk
    · exact step_of_no_key (o := .dectail) hp hs rfl hk
  case badLength =>
    rintro (⟨rfl | rfl, hn⟩ | ⟨hk, rfl | rfl, hn⟩ | ⟨hk, rfl | rfl, hn⟩)
    · exact step_of_length_ne (o := .stat) hp hs nofun nofun hn
    · exact step_of_length_ne (o := .clrkey) hp hs nofun nofun hn
    · exact step_of_length_ne (o := .encblk) hp hs nofun (fun _ => hk) hn
    · exact step_of_length_ne (o := .decblk) hp hs nofun (fun _ => hk) hn
    · exact step_of_length_ne (o := .enctail) hp hs nofun (fun _ => hk) hn
    · exact step_of_length_ne (o := .dectail) hp hs nofun (fun _ => hk) hn
  case performed =>
    rintro (⟨rfl | rfl, hn⟩ | ⟨rfl, hn⟩ | ⟨hk, rfl | rfl, hn⟩ | ⟨hk, rfl | rfl, hn⟩)
    · exact step_performed (o := .stat) hp hs nofun hn
    · exact step_performed (o := .clrkey) hp hs nofun hn
    · exact step_performed (o := .ldkey) hp hs nofun hn
    · exact step_performed (o := .encblk) hp hs (fun _ => hk) hn
    · exact step_performed (o := .decblk) hp hs (fun _ => hk) hn
    · exact step_performed (o := .enctail) hp hs (fun _ => hk) hn
    · exact step_performed (o := .dectail) hp hs (fun _ => hk) hn

end Sys2Proof.Machine
end

section
/-! PROOFS. The steps of the sequencer one by one (spec/30_encoding.md R71, R75 to R77): round, finish, take, waiting, and
the phase in which no step is enabled. -/

namespace Sys2Proof.Machine

/-- Time passing touches no working register. -/
@[simp] theorem State.passTime_blockState (s : State) : s.passTime.blockState = s.blockState := by
  simp [State.blockState]

/-- R75: what a round does to `V0`, `V1` and `SUM`, by transform. -/
theorem roundStep_blockState_eq (s : State) : (roundStep s).blockState = match s.op with
    | .encblk => encRound s.k s.blockState
    | .decblk => decRound s.k s.blockState
    | .enctail | .dectail => s.blockState := by
  cases h : s.op <;> simp [roundStep, roundOf, h, State.blockState]

/-- R75: what a round does to `S`, by transform. -/
theorem roundStep_sAcc_eq (s : State) : (roundStep s).sAcc = match s.op with
    | .encblk | .decblk => s.sAcc
    | .enctail => encTailRound s.k s.pos s.sAcc
    | .dectail => decTailRound s.k s.pos s.sAcc := by
  cases h : s.op <;> simp [roundStep, roundOf, h]

/-- Settles O39: the step is `roundStep`; a round touches `RND` and, by transform, the block registers or `S`. -/
theorem roundStepDoesOneRound : Obligations.RoundStepDoesOneRound := by
  unfold Obligations.RoundStepDoesOneRound
  intro s hp hn hr
  refine ⟨_, step_of_round hp hn hr, ?_, by simp [hp], by simp, ?_⟩
  · rw [roundStep_rnd, State.passTime_rnd, rnd_succ hn]
  have hblock := roundStep_blockState_eq s.passTime
  have hsAcc := roundStep_sAcc_eq s.passTime
  cases ho : s.op <;> simp only [State.passTime_op, State.passTime_k, State.passTime_pos, State.passTime_sAcc,
    State.passTime_blockState, ho] at hblock hsAcc
  case encblk => exact ⟨hblock, hsAcc⟩
  case decblk => exact ⟨hblock, hsAcc⟩
  case enctail => exact ⟨hsAcc, by simpa [State.blockState] using hblock⟩
  case dectail => exact ⟨hsAcc, by simpa [State.blockState] using hblock⟩

/-- Time passing does not change the result. -/
@[simp] theorem resultBody_passTime (s : State) : resultBody s.passTime = resultBody s := by
  simp [resultBody]

/-- Settles O40: the step is `finishStep`, whose response is `OK` and the result of the transform. -/
theorem finishStepPacksTheResult : Obligations.FinishStepPacksTheResult := by
  unfold Obligations.FinishStepPacksTheResult
  intro s hp hn hr
  refine ⟨_, step_of_finish hp hn hr, finishStep_ph _, by simp, by simp, ?_⟩
  rw [finishStep_rsp, resultBody_passTime]
  cases ho : s.op <;> simp [resultBody, ho, Status.code]

/-- Settles O41: a take is `takeResponse`; without one `RESP` is left by a reset alone. -/
theorem takeStepDeliversTheResponse : Obligations.TakeStepDeliversTheResponse := by
  unfold Obligations.TakeStepDeliversTheResponse
  intro s hp
  refine ⟨fun rest hs => step_of_take hp hs, fun ht hr => ⟨_, step_of_wait hr (.inr ⟨hp, ht⟩), ?_⟩⟩
  simp [hp, State.session]

theorem State.passTime_of_wait {s : State} {rest : List HostAct} (h : s.todo = .wait :: rest) :
    s.passTime = s.withTodo rest := by
  simp [State.passTime, State.withTodo, h]

theorem State.passTime_of_no_wait {s : State} (h : ∀ rest, s.todo ≠ .wait :: rest) : s.passTime = s := by
  obtain ⟨rest, hs, -⟩ | e := s.passTime_todo_cases
  · exact absurd hs (h rest)
  · exact e

/-- Settles O42: a waiting step is `passTime`, which uses up a leading `wait`. -/
theorem coreWaitsForTheHost : Obligations.CoreWaitsForTheHost := by
  unfold Obligations.CoreWaitsForTheHost
  intro s hr hw
  have hstep : step s = .next s.passTime := step_of_wait hr hw
  exact ⟨fun rest hs => hstep.trans (congrArg _ (State.passTime_of_wait hs)),
    fun hs => hstep.trans (congrArg _ (State.passTime_of_no_wait hs))⟩

/-- Settles O43: of the three cases of phase `RUN` only the fault has `RND` above 32. -/
theorem noStepBeyondRound32 : Obligations.NoStepBeyondRound32 := by
  unfold Obligations.NoStepBeyondRound32
  intro s hp hn hr
  rw [step_of_no_reset hr, phaseStep, hp]
  obtain ⟨h, -⟩ | ⟨h, -⟩ | ⟨-, e⟩ := runStep_cases s
  · omega
  · omega
  · exact e

end Sys2Proof.Machine
end

section
/-! PROOFS. A good state runs for ever (spec/30_encoding.md R71, spec/60_exceptions.md R231): every step from one is enabled,
and leads to one. -/

namespace Sys2Proof.Machine

/-- While `RND` has not passed 32 in `RUN`, a state looks like itself. -/
theorem State.RoundInv.looksLike {s : State} (h : s.RoundInv) : s.LooksLike s :=
  ⟨rfl, rfl, rfl, rfl, rfl, rfl, h, fun _ => rfl⟩

/-- R71: a step is enabled unless `RND` has passed 32 in `RUN`. -/
theorem exists_step_of_roundInv {s : State} (h : s.RoundInv) : ∃ t, step s = .next t := by
  obtain ⟨t, -, e, -⟩ := h.looksLike.step
  exact ⟨t, e⟩

theorem safeRun_of_inv (n : Nat) {s : State} (hi : s.Inv) : SafeRun n s := by
  induction n generalizing s with
  | zero => exact ⟨s, rfl, hi⟩
  | succ n ih =>
    have ⟨_, hround, _, _⟩ := hi
    obtain ⟨t, e⟩ := exists_step_of_roundInv hround
    obtain ⟨u, hu, hinv⟩ := ih (stepKeepsTheGoodState s t hi e)
    exact ⟨u, (runSteps_succ_of_next n e).trans hu, hinv⟩

/-- Settles O51, by induction on the number of steps. -/
theorem goodStatesRunForever : Obligations.GoodStatesRunForever := by
  unfold Obligations.GoodStatesRunForever
  exact fun s n hi => safeRun_of_inv n hi

end Sys2Proof.Machine
end

section
/-! PROOFS. The step-by-step machine against the atomic reading (spec/30_encoding.md R89, spec/70_reset_and_hazards.md R279):
how a transform that has begun gets to its response, and what an accept step leads to, by the decode order of R78. -/

namespace Sys2Proof.Machine

/-! ### Runs to a response -/

/-- From `s` CORE is in `RESP` after `n` steps, in state `t`, and after no smaller number; nothing is delivered on the
way. -/
structure State.RespondsIn (n : Nat) (s t : State) : Prop where
  reaches : runSteps n s = .next t
  ph : t.ph = .resp
  delivered : t.delivered = s.delivered
  notBefore : ∀ m, m < n → ∃ w, runSteps m s = .next w ∧ w.ph ≠ .resp ∧ w.delivered = s.delivered

theorem State.respondsIn_zero {s : State} (hp : s.ph = .resp) : s.RespondsIn 0 s :=
  ⟨rfl, hp, rfl, nofun⟩

/-- One step more at the start. -/
theorem State.RespondsIn.of_step {n : Nat} {s t u : State} (h : t.RespondsIn n u) (hs : step s = .next t)
    (hp : s.ph ≠ .resp) (hd : t.delivered = s.delivered) : s.RespondsIn (n + 1) u where
  reaches := (runSteps_succ_of_next n hs).trans h.reaches
  ph := h.ph
  delivered := h.delivered.trans hd
  notBefore m hm := by
    cases m with
    | zero => exact ⟨s, rfl, hp, rfl⟩
    | succ m =>
      obtain ⟨w, e, hw, hwd⟩ := h.notBefore m (by omega)
      exact ⟨w, (runSteps_succ_of_next m hs).trans e, hw, hwd.trans hd⟩

/-! ### A transform that has begun -/

/-- One round done is one less to do: of the rounds to come it was the first. -/
theorem resultAfter_roundStep (n : Nat) (s : State) : (roundStep s).resultAfter n = s.resultAfter (n + 1) := by
  have hblock := roundStep_blockState_eq s
  have hsAcc := roundStep_sAcc_eq s
  cases ho : s.op <;> simp only [ho] at hblock hsAcc <;>
    simp [State.resultAfter, ho, hblock, hsAcc, rounds_succ_start]

@[simp] theorem State.resultAfter_passTime (n : Nat) (s : State) : s.passTime.resultAfter n = s.resultAfter n := by
  simp [State.resultAfter]

theorem State.resultAfter_zero (s : State) : s.resultAfter 0 = resultBody s := rfl

/-- R75, R76: with `n` rounds left, and a host that does not reset, CORE is in `RESP` after `n` rounds and the finish, with
the result of `n` more rounds. -/
theorem running_respondsIn (n : Nat) {s : State} (hp : s.ph = .run) (hn : s.rnd.toNat + n = 32) (hu : s.Undisturbed) :
    ∃ t, s.RespondsIn (n + 1) t ∧ t.session = s.session ∧ t.rsp = okPacket (s.resultAfter n) ∧
      ∀ l, s.todo = .take :: l → t.todo = .take :: l := by
  have hph : s.ph ≠ .resp := by simp [hp]
  induction n generalizing s with
  | zero =>
    refine ⟨_, (State.respondsIn_zero rfl).of_step (step_of_finish hp hn hu.no_reset) hph (by simp), ?_, ?_, ?_⟩
    · simp [State.session]
    · rw [finishStep_rsp, resultBody_passTime, State.resultAfter_zero, okPacket]
    · exact fun l hl => State.passTime_todo_take hl
  | succ n ih =>
    have hround := step_of_round hp (by omega) hu.no_reset
    have hrnd : (roundStep s.passTime).rnd.toNat = s.rnd.toNat + 1 := by
      rw [roundStep_rnd, State.passTime_rnd, rnd_succ (by omega)]
    obtain ⟨t, ht, hsession, hrsp, htodo⟩ := ih (s := roundStep s.passTime) (by simp [hp]) (by omega)
      (by simpa [State.Undisturbed] using hu.passTime) (by simp [hp])
    refine ⟨t, ht.of_step hround hph (by simp), ?_, ?_, ?_⟩
    · simpa [State.session] using hsession
    · rw [hrsp, resultAfter_roundStep, State.resultAfter_passTime]
    · exact fun l hl => htodo l (by simpa using State.passTime_todo_take hl)

/-! ### The accept step by the decode order -/

/-- R78, R240: an error of the decode order is what the accept step raises, a failed `LDKEY` after erasing the key. -/
theorem accept_of_verdict_error {s : State} {p : Packet} {e : CmdError} (h : verdict s.kv p = .error e) :
    (∃ n, e = .invalidKeyLength n ∧ accept p s = .next (raise e (eraseKey s))) ∨
      (∀ n, e ≠ .invalidKeyLength n) ∧ accept p s = .next (raise e s) := by
  unfold verdict at h
  split at h
  · rename_i r hr
    cases h
    exact .inr ⟨by cases r <;> nofun, accept_of_reject hr s⟩
  · rename_i i hi
    rw [accept_of_decode hi]
    split_ifs at h with hkey hno hlen <;> cases h
    · obtain ⟨hop, hn⟩ := hkey
      cases i <;> cases hop
      exact .inl ⟨_, rfl, exec_ldkey_of_length_ne hn s⟩
    · obtain ⟨hneed, hk⟩ := hno
      exact .inr ⟨nofun, exec_of_no_key hneed hk⟩
    · exact .inr ⟨nofun, exec_of_length_ne (fun hop => hkey ⟨hop, hlen⟩) (by simpa using hno) hlen⟩

/-- What the accept step does with a packet, by the atomic reading: the reading's response and session at once, where
`stepsOf` counts one step, or a transform begun that is `TIMES` rounds away from them, where it counts 34. -/
theorem accept_atomic (p : Packet) (s : State) :
    ∃ t, accept p s = .next t ∧
      (stepsOf s.session p = 1 ∧ s.Answers t (answer s.session p) ∨
        stepsOf s.session p = 34 ∧ s.Begins t (answer s.session p)) := by
  have hkv : s.session.kv = s.kv := rfl
  simp only [stepsOf, answer, hkv]
  cases hv : verdict s.kv p with
  | error e =>
    obtain ⟨n, rfl, h⟩ | ⟨he, h⟩ := accept_of_verdict_error hv
    · exact ⟨_, h, .inl ⟨rfl, rfl, rfl, rfl, rfl⟩⟩
    · refine ⟨_, h, .inl ⟨rfl, rfl, rfl, rfl, ?_⟩⟩
      cases e with
      | invalidKeyLength n => exact absurd rfl (he n)
      | badLength n => rfl
      | noKey => rfl
      | illegalCommand op => rfl
  | ok i =>
    obtain ⟨hi, hn, hk⟩ := verdict_ok hv
    rw [accept_of_decode hi]
    cases hneed : i.opcode.needsKey with
    | false =>
      obtain ⟨t, h, ht⟩ := exec_answers s hneed hn
      exact ⟨t, h, .inl ⟨by simp [hneed], ht⟩⟩
    | true =>
      obtain ⟨t, h, ht⟩ := exec_begins hneed (hk hneed) hn
      exact ⟨t, h, .inr ⟨by simp [hneed], ht⟩⟩

/-- R89: a packet presented to a host that then takes is answered as the atomic reading says, after `stepsOf` steps. -/
theorem respondsIn_stepsOf {s : State} {p : Packet} {rest : List HostAct} (hp : s.ph = .idle)
    (hs : s.todo = .send p :: .take :: rest) :
    ∃ t, s.RespondsIn (stepsOf s.session p) t ∧ answer s.session p = some (t.session, t.rsp) ∧ t.todo = .take :: rest := by
  have hph : s.ph ≠ .resp := by simp [hp]
  obtain ⟨t, h, ht⟩ := accept_atomic p (s.withTodo (.take :: rest))
  have hstep : step s = .next t := (step_of_accept hp hs).trans h
  have hsession : (s.withTodo (.take :: rest)).session = s.session := rfl
  rw [hsession] at ht
  obtain ⟨hsteps, ht⟩ | ⟨hsteps, ht⟩ := ht <;> rw [hsteps]
  · exact ⟨t, (State.respondsIn_zero ht.ph).of_step hstep hph ht.delivered, ht.reading, ht.todo⟩
  · obtain ⟨u, hu, hsession, hrsp, htodo⟩ :=
      running_respondsIn cfg.times ht.ph (by simp [ht.rnd]) (.inr ⟨rest, ht.todo⟩)
    refine ⟨u, hu.of_step hstep hph ht.delivered, ?_, htodo rest ht.todo⟩
    rw [hsession, hrsp, ht.session]
    exact ht.reading

/-- Settles O52: the run to the response, then the take. -/
theorem machineRefinesAtomicReading : Obligations.MachineRefinesAtomicReading := by
  unfold Obligations.MachineRefinesAtomicReading
  intro s p rest hp hs
  obtain ⟨t, ht, hanswer, htodo⟩ := respondsIn_stepsOf hp hs
  have htake : runSteps 1 t = .next (takeResponse (t.withTodo rest)) := by
    rw [runSteps_succ_of_next 0 (step_of_take ht.ph htodo), runSteps]
  refine ⟨t.session, t.rsp, t, takeResponse (t.withTodo rest), hanswer, ht.reaches, ht.ph, rfl, rfl, ht.delivered,
    ht.notBefore, (runSteps_add_of_next _ 1 ht.reaches).trans htake, rfl, rfl, rfl, rfl, ?_⟩
  simp [ht.delivered]

end Sys2Proof.Machine
end

section
/-! PROOFS. The modular arithmetic unit (spec/40_word_arithmetic.md R100 to R112): the spec's formulas, said once for every
width, then the functions at 32 and at 8 bits, and the reduction to a width as a homomorphism of sums and exclusive-ors. -/

namespace Sys2Proof.Machine

/-! ### The formulas, at every width -/

section
variable {w : Nat} (a b : BitVec w) (n : Nat)

/-- R102, R107: adding `2^w` first keeps the difference of natural numbers from truncating at 0. -/
theorem toNat_sub_eq_mod : (a - b).toNat = (a.toNat + 2 ^ w - b.toNat) % 2 ^ w := by
  rw [BitVec.toNat_sub', Nat.add_sub_assoc b.isLt.le]

/-- R103, R108. -/
theorem toNat_shiftLeft_eq_mul : (a <<< n).toNat = a.toNat * 2 ^ n % 2 ^ w := by
  rw [BitVec.toNat_shiftLeft, Nat.shiftLeft_eq]

/-- R104, R109. -/
theorem toNat_ushiftRight_eq_div : (a >>> n).toNat = a.toNat / 2 ^ n := by
  rw [BitVec.toNat_ushiftRight, Nat.shiftRight_eq_div_pow]

/-- R105, R110: the exclusive-or of two bits is their sum modulo 2. -/
theorem getLsbD_xor_toNat (i : Nat) :
    ((a ^^^ b).getLsbD i).toNat = ((a.getLsbD i).toNat + (b.getLsbD i).toNat) % 2 := by
  rw [BitVec.getLsbD_xor]
  cases a.getLsbD i <;> cases b.getLsbD i <;> rfl

/-! ### Reduction to a width (R112) -/

/-- A value reduces to itself. -/
theorem ofNat_toNat_self : BitVec.ofNat w a.toNat = a := by
  rw [BitVec.ofNat_toNat, BitVec.setWidth_eq]

/-- R112: the unbounded product of a left shift may be reduced at the end. -/
theorem ofNat_toNat_mul_two_pow : BitVec.ofNat w (a.toNat * 2 ^ n) = a <<< n := by
  apply BitVec.eq_of_toNat_eq
  rw [BitVec.toNat_ofNat, toNat_shiftLeft_eq_mul]

/-- R112: the quotient of a reduced value is a right shift; it is no quotient of an unreduced one. -/
theorem ofNat_toNat_div_two_pow : BitVec.ofNat w (a.toNat / 2 ^ n) = a >>> n := by
  rw [← toNat_ushiftRight_eq_div, ofNat_toNat_self]

end

/-! ### The functions at 32 and at 8 bits -/

/-- Settles O3: word addition is that of `BitVec 32`. -/
theorem add32WrapsSilently : Obligations.Add32WrapsSilently := by
  unfold Obligations.Add32WrapsSilently
  exact fun a b c => ⟨BitVec.toNat_add a b, BitVec.add_zero a, BitVec.add_comm a b, BitVec.add_assoc a b c, by decide⟩

/-- R102: `sub32(a, b)` is the only `r` with `add32(r, b) = a`. -/
theorem add32_eq_iff (r a b : Word) : add32 r b = a ↔ r = sub32 a b := BitVec.eq_sub_iff_add_eq.symm

/-- R107: `sub8(a, b)` is the only `r` with `add8(r, b) = a`. -/
theorem add8_eq_iff (r a b : Byte) : add8 r b = a ↔ r = sub8 a b := BitVec.eq_sub_iff_add_eq.symm

/-- Settles O4: the formula at width 32, and the uniqueness of the difference. -/
theorem sub32WrapsSilently : Obligations.Sub32WrapsSilently := by
  unfold Obligations.Sub32WrapsSilently
  exact fun a b => ⟨toNat_sub_eq_mod a b, fun r => add32_eq_iff r a b, BitVec.sub_self a, by decide⟩

/-- Settles O5: the formulas at width 32; a shift by the width or more leaves no bit. -/
theorem shifts32AreLogical : Obligations.Shifts32AreLogical := by
  unfold Obligations.Shifts32AreLogical
  exact fun a n => ⟨toNat_shiftLeft_eq_mul a n, BitVec.shiftLeft_zero a, BitVec.shiftLeft_eq_zero,
    toNat_ushiftRight_eq_div a n, BitVec.ushiftRight_zero a, BitVec.ushiftRight_eq_zero, by decide⟩

/-- Settles O6: the sum of bits modulo 2 at width 32, and the laws of the exclusive-or. -/
theorem xor32IsBitwise : Obligations.Xor32IsBitwise := by
  unfold Obligations.Xor32IsBitwise
  exact fun a b c => ⟨fun i _ => getLsbD_xor_toNat a b i, BitVec.xor_self, BitVec.xor_zero, BitVec.xor_comm a b,
    BitVec.xor_assoc a b c, by decide⟩

/-- Settles O7: the formulas at width 8. -/
theorem byteFunctionsWrapAtEightBits : Obligations.ByteFunctionsWrapAtEightBits := by
  unfold Obligations.ByteFunctionsWrapAtEightBits
  exact fun a b n => ⟨BitVec.toNat_add a b, toNat_sub_eq_mod a b, fun r => add8_eq_iff r a b, toNat_shiftLeft_eq_mul a n,
    toNat_ushiftRight_eq_div a n, fun i _ => getLsbD_xor_toNat a b i, by decide⟩

@[simp] theorem sub32_add32 (a b : Word) : sub32 (add32 a b) b = a := ((add32_eq_iff a _ b).mp rfl).symm
@[simp] theorem add32_sub32 (a b : Word) : add32 (sub32 a b) b = a := (add32_eq_iff _ a b).mpr rfl
@[simp] theorem sub8_add8 (a b : Byte) : sub8 (add8 a b) b = a := ((add8_eq_iff a _ b).mp rfl).symm
@[simp] theorem add8_sub8 (a b : Byte) : add8 (sub8 a b) b = a := (add8_eq_iff _ a b).mpr rfl

/-- Settles O8: both laws say that the difference is the unique `r`. -/
theorem addAndSubAreInverse : Obligations.AddAndSubAreInverse := by
  unfold Obligations.AddAndSubAreInverse
  exact ⟨fun a b => ⟨sub32_add32 a b, add32_sub32 a b⟩, fun a b => ⟨sub8_add8 a b, add8_sub8 a b⟩⟩

/-! ### The inner terms of the rounds (R112) -/

theorem mix_eq_ofNat (x ka kb s : Word) :
    mix x ka kb s = BitVec.ofNat 32
      ((x.toNat * 2 ^ 6 + ka.toNat) ^^^ (x.toNat + s.toNat) ^^^ (x.toNat / 2 ^ 3 + kb.toNat)) := by
  simp only [BitVec.ofNat_xor, BitVec.ofNat_add, ofNat_toNat_mul_two_pow, ofNat_toNat_div_two_pow, ofNat_toNat_self]
  rfl

theorem tailC_eq_ofNat (k : KeyRegs) (pos : BitVec 3) :
    tailC k pos = BitVec.ofNat 8
      (((padByte pos).toNat * 2 ^ 3 + (tailKeyByte k pos).toNat) ^^^
        ((padByte pos).toNat / 2 ^ 2 + (tailKeyByte k pos).toNat)) := by
  simp only [BitVec.ofNat_xor, BitVec.ofNat_add, ofNat_toNat_mul_two_pow, ofNat_toNat_div_two_pow, ofNat_toNat_self]
  rfl

/-- Settles O22: reduction is a homomorphism of sums and exclusive-ors, and the right shift acts on a reduced value. -/
theorem widerIntermediatesAgree : Obligations.WiderIntermediatesAgree := by
  unfold Obligations.WiderIntermediatesAgree
  exact ⟨mix_eq_ofNat, tailC_eq_ofNat⟩

end Sys2Proof.Machine
end

section
/-! PROOFS. The byte/word codec (spec/41_word_codec.md R121 to R124) and the key load command on it (R130, R131). The two
codec functions are inverse to each other, so what a word of `bytesToWords` is follows from what the bytes of
`wordsToBytes` are. -/

namespace Sys2Proof.Machine

/-! ### Unpacking words (R122) -/

@[simp] theorem wordsToBytes_length (ws : List Word) : (wordsToBytes ws).length = 4 * ws.length := by
  induction ws with
  | nil => rfl
  | cons w ws ih =>
    simp only [wordsToBytes_cons, List.length_append, unpackWord_length, ih, List.length_cons]
    omega

theorem unpackWord_getElem? (w : Word) {t : Nat} (ht : t < 4) : (unpackWord w)[t]? = some (wordByte w t) := by
  match t, ht with
  | 0, _ | 1, _ | 2, _ | 3, _ => rfl

/-- R122: byte `4g + t` is `byte_t` of word `g`. -/
theorem wordsToBytes_getElem? {ws : List Word} {g t : Nat} (hg : g < ws.length) (ht : t < 4) :
    (wordsToBytes ws)[4 * g + t]? = some (wordByte ws[g] t) := by
  induction ws generalizing g with
  | nil => cases hg
  | cons w ws ih =>
    cases g with
    | zero =>
      rw [wordsToBytes_cons, Nat.mul_zero, Nat.zero_add, List.getElem?_append_left ht]
      exact unpackWord_getElem? w ht
    | succ g =>
      have hskip : 4 * (g + 1) + t - 4 = 4 * g + t := by omega
      rw [wordsToBytes_cons, List.getElem?_append_right (by simp only [unpackWord_length]; omega), unpackWord_length,
        hskip]
      exact ih (Nat.lt_of_succ_lt_succ hg)

/-- Settles O10: the length and the bytes, the byte of a word as a quotient. -/
theorem wordsToBytesLittleEndian : Obligations.WordsToBytesLittleEndian := by
  unfold Obligations.WordsToBytesLittleEndian
  refine ⟨fun ws => ⟨wordsToBytes_length ws, fun g t hg ht => ?_⟩, by decide⟩
  rw [wordsToBytes_getElem? hg ht, wordByte_eq_div, List.getD_eq_getElem _ _ hg]

/-! ### The round trip (R123, R124) -/

theorem bytesToWords_wordsToBytes (ws : List Word) : bytesToWords (wordsToBytes ws) = some ws := by
  induction ws with
  | nil => rfl
  | cons w ws ih =>
    rw [wordsToBytes_cons, unpackWord]
    simp [ih, packWord_wordByte]

theorem wordsToBytes_of_bytesToWords {bs : List Byte} {ws : List Word} (h : bytesToWords bs = some ws) :
    wordsToBytes ws = bs := by
  induction bs using bytesToWords.induct generalizing ws with
  | case1 =>
    cases h
    rfl
  | case2 b0 b1 b2 b3 rest ih =>
    obtain ⟨ws', h', rfl⟩ := Option.map_eq_some_iff.mp h
    rw [wordsToBytes_cons, unpackWord_packWord, ih h']
    rfl
  | case3 | case4 | case5 => cases h

/-- R121, R123: there are words exactly when 4 divides the length. -/
theorem bytesToWords_isSome_iff (bs : List Byte) : (bytesToWords bs).isSome ↔ bs.length % 4 = 0 := by
  induction bs using bytesToWords.induct with
  | case1 => simp
  | case2 b0 b1 b2 b3 rest ih =>
    simp only [bytesToWords_group, Option.isSome_map, ih, List.length_cons]
    omega
  | case3 | case4 | case5 => simp [bytesToWords]

/-- Settles O11: a byte string whose length 4 divides has words, and these unpack to it. -/
theorem codecRoundTrip : Obligations.CodecRoundTrip := by
  unfold Obligations.CodecRoundTrip
  refine ⟨fun bs h => ?_, bytesToWords_wordsToBytes⟩
  obtain ⟨ws, hws⟩ := Option.isSome_iff_exists.mp ((bytesToWords_isSome_iff bs).mpr h)
  rw [hws, Option.map_some, wordsToBytes_of_bytesToWords hws]

/-! ### Packing bytes (R121) -/

/-- R121: a packed word is the spec's sum. -/
theorem packWord_eq_leWord (a b c d : Byte) : packWord a b c d = leWord a b c d := by
  rw [leWord, ← packWord_toNat, ofNat_toNat_self]

/-- R121: word `g` is the little-endian word of the four bytes from `4g` on. -/
theorem bytesToWords_getElem {bs : List Byte} {ws : List Word} (h : bytesToWords bs = some ws) {g : Nat}
    (hg : g < ws.length) :
    ws[g] = leWord (bs.getD (4 * g) 0#8) (bs.getD (4 * g + 1) 0#8) (bs.getD (4 * g + 2) 0#8)
      (bs.getD (4 * g + 3) 0#8) := by
  have hbyte (t : Nat) (ht : t < 4) : bs.getD (4 * g + t) 0#8 = wordByte ws[g] t := by
    rw [← wordsToBytes_of_bytesToWords h, List.getD_eq_getElem?_getD, wordsToBytes_getElem? hg ht, Option.getD_some]
  have hfirst : bs.getD (4 * g) 0#8 = wordByte ws[g] 0 := hbyte 0 (by decide)
  rw [hfirst, hbyte 1 (by decide), hbyte 2 (by decide), hbyte 3 (by decide), ← packWord_eq_leWord, packWord_wordByte]

/-- Settles O9: the words unpack to the byte string, which gives their number and each of them. -/
theorem bytesToWordsLittleEndian : Obligations.BytesToWordsLittleEndian := by
  unfold Obligations.BytesToWordsLittleEndian
  refine ⟨fun bs => ⟨fun h => ?_, fun h => ?_⟩, by decide⟩
  · obtain ⟨ws, hws⟩ := Option.isSome_iff_exists.mp ((bytesToWords_isSome_iff bs).mpr h)
    have hlen : bs.length = 4 * ws.length := by rw [← wordsToBytes_of_bytesToWords hws, wordsToBytes_length]
    refine ⟨ws, hws, by omega, fun g hg => ?_⟩
    rw [List.getElem?_eq_getElem hg, bytesToWords_getElem hws hg]
  · exact Option.not_isSome_iff_eq_none.mp (mt (bytesToWords_isSome_iff bs).mp h)

/-! ### The key load command (R130, R131) -/

theorem exec_ldkey_of_key {pl : Packet} {k : KeyRegs} (h : keyOfPayload pl = some k) (s : State) :
    exec (.ldkey pl) s = .next (respondOk [] (loadKey k s)) := by
  simp [exec, execLdkey, h]

/-- Settles O24: the key operand of sixteen bytes is loaded, its words by the spec's sum. -/
theorem ldkeyLoadsTheKey : Obligations.LdkeyLoadsTheKey := by
  unfold Obligations.LdkeyLoadsTheKey
  intro s a0 a1 a2 a3 b0 b1 b2 b3 c0 c1 c2 c3 d0 d1 d2 d3
  rw [exec_ldkey_of_key (keyOfPayload_bytes ..)]
  simp only [packWord_eq_leWord]
  rfl

/-- Settles O25: the error is raised in the state whose key is erased. -/
theorem ldkeyRejectsOtherLengths : Obligations.LdkeyRejectsOtherLengths := by
  unfold Obligations.LdkeyRejectsOtherLengths
  exact fun s pl hn => exec_ldkey_of_length_ne hn s

end Sys2Proof.Machine
end

section
/-! PROOFS. The block engine (spec/42_block_transform.md R140 to R154): the round function and the rounds by their formulas,
the accumulator's schedule, and the two block transforms as inverses of each other. -/

namespace Sys2Proof.Machine

/-! ### The round function and the half-steps by their formulas (R142 to R144, R147) -/

section
variable (k : KeyRegs) (v0 v1 sum : Word)

theorem mix_eq (x ka kb s : Word) : mix x ka kb s = ((x <<< 6) + ka) ^^^ (x + s) ^^^ ((x >>> 3) + kb) := rfl

/-- R142: from zeros only the accumulator gets through. -/
theorem mix_zero (s : Word) : mix 0#32 0#32 0#32 s = s := by simp [mix_eq]

theorem encHalfA_eq :
    encHalfA k v0 v1 sum = v0 + (((v1 <<< 6) + k.k0) ^^^ (v1 + sum) ^^^ ((v1 >>> 3) + k.k1)) := rfl

theorem encHalfB_eq :
    encHalfB k v0 v1 sum = v1 + (((v0 <<< 6) + k.k2) ^^^ (v0 + sum) ^^^ ((v0 >>> 3) + k.k3)) := rfl

theorem decHalfB_eq :
    decHalfB k v0 v1 sum = v1 - (((v0 <<< 6) + k.k2) ^^^ (v0 + sum) ^^^ ((v0 >>> 3) + k.k3)) := rfl

theorem decHalfA_eq :
    decHalfA k v0 v1 sum = v0 - (((v1 <<< 6) + k.k0) ^^^ (v1 + sum) ^^^ ((v1 >>> 3) + k.k1)) := rfl

/-! ### A round undoes the round of the other direction (R154) -/

@[simp] theorem decHalfA_encHalfA : decHalfA k (encHalfA k v0 v1 sum) v1 sum = v0 := sub32_add32 v0 _
@[simp] theorem encHalfA_decHalfA : encHalfA k (decHalfA k v0 v1 sum) v1 sum = v0 := add32_sub32 v0 _
@[simp] theorem decHalfB_encHalfB : decHalfB k v0 (encHalfB k v0 v1 sum) sum = v1 := sub32_add32 v1 _
@[simp] theorem encHalfB_decHalfB : encHalfB k v0 (decHalfB k v0 v1 sum) sum = v1 := add32_sub32 v1 _

end

/-- R154: the decrypt half-steps come in the opposite order, each with the accumulator of the half-step it undoes. -/
theorem decRound_encRound (k : KeyRegs) : Function.LeftInverse (decRound k) (encRound k) := fun b => by
  simp [encRound, decRound]

theorem encRound_decRound (k : KeyRegs) : Function.LeftInverse (encRound k) (decRound k) := fun b => by
  simp [encRound, decRound]

/-- Settles O13: the formula is the definition's, and from zeros two of its three terms vanish. -/
theorem mixIsXorOfThreeAdds : Obligations.MixIsXorOfThreeAdds := by
  unfold Obligations.MixIsXorOfThreeAdds
  exact ⟨fun x ka kb s => ⟨mix_eq x ka kb s, mix_zero s⟩, by decide⟩

/-- Settles O14: the half-steps by their formulas, B on the `v0` that A has updated. -/
theorem encRoundOrder : Obligations.EncRoundOrder := by
  unfold Obligations.EncRoundOrder
  exact ⟨fun k v0 v1 sum => ⟨_, _, _, rfl, rfl, encHalfA_eq .., encHalfB_eq ..⟩, by decide⟩

/-- Settles O15: the inverse half-steps by their formulas, A on the `v1` that B has recovered. -/
theorem decRoundOrder : Obligations.DecRoundOrder := by
  unfold Obligations.DecRoundOrder
  exact ⟨fun k v0 v1 sum => ⟨_, _, _, rfl, decHalfB_eq .., decHalfA_eq .., rfl⟩, by decide⟩

/-! ### The accumulator over a run of rounds (R153) -/

theorem sumAt_eq_ofNat (r : Nat) : sumAt r = BitVec.ofNat 32 (r * 0x9E3779B9) := rfl

theorem sumAt_add (m n : Nat) : sumAt (m + n) = sumAt m + sumAt n := by
  simp only [sumAt, Nat.add_mul, BitVec.ofNat_add]

theorem iterate_encRound_sum (k : KeyRegs) (r : Nat) (b : BlockState) :
    ((encRound k)^[r] b).sum = b.sum + sumAt r := by
  induction r with
  | zero => simp [sumAt_zero]
  | succ r ih => rw [Function.iterate_succ_apply', encRound_sum, ih, sumAt_succ, BitVec.add_assoc]

theorem iterate_decRound_sum (k : KeyRegs) (r : Nat) (b : BlockState) :
    ((decRound k)^[r] b).sum = b.sum - sumAt r := by
  induction r with
  | zero => simp [sumAt_zero]
  | succ r ih => rw [Function.iterate_succ_apply', decRound_sum, ih, sumAt_succ, BitVec.sub_sub]

/-- R153: encryption climbs the schedule from entry 0. -/
theorem iterate_encRound_sum_of_zero (k : KeyRegs) (v0 v1 : Word) (r : Nat) :
    ((encRound k)^[r] ⟨v0, v1, 0#32⟩).sum = sumAt r := by
  rw [iterate_encRound_sum, BitVec.zero_add]

/-- R153: decryption descends it from entry 32, which is `SUM0`. -/
theorem iterate_decRound_sum_of_sum0 (k : KeyRegs) (v0 v1 : Word) {r : Nat} (hr : r ≤ 32) :
    ((decRound k)^[r] ⟨v0, v1, cfg.sum0⟩).sum = sumAt (32 - r) := by
  have hsum0 : cfg.sum0 = sumAt (32 - r) + sumAt r := by
    rw [← sumAt_add, Nat.sub_add_cancel hr]
    exact cfg_sum0_eq_sumAt_times
  rw [iterate_decRound_sum, hsum0, BitVec.add_sub_cancel]

/-- Settles O17: the two schedules, and the table by evaluation. -/
theorem roundKeySchedule : Obligations.RoundKeySchedule := by
  unfold Obligations.RoundKeySchedule
  refine ⟨fun k v0 v1 r hr => ⟨?_, ?_⟩, sumAt_eq_ofNat, sumAt_zero, by decide⟩
  · exact iterate_encRound_sum_of_zero k v0 v1 r
  · exact iterate_decRound_sum_of_sum0 k v0 v1 hr

/-! ### The block transforms (R146, R149, R154) -/

section
variable (k : KeyRegs) (v : Word × Word)

/-- R146: all of the working values after the rounds of `BlockEncrypt`; the accumulator is where decryption starts. -/
theorem iterate_encRound_eq_blockEncrypt :
    (encRound k)^[32] ⟨v.1, v.2, 0#32⟩ = ⟨(blockEncrypt k v).1, (blockEncrypt k v).2, cfg.sum0⟩ := by
  have hsum : ((encRound k)^[32] ⟨v.1, v.2, 0#32⟩).sum = cfg.sum0 :=
    (iterate_encRound_sum_of_zero k v.1 v.2 32).trans cfg_sum0_eq_sumAt_times.symm
  rw [blockEncrypt, cfg_times, rounds_eq_iterate, ← hsum]

/-- R149: all of the working values after the rounds of `BlockDecrypt`; the accumulator is where encryption starts. -/
theorem iterate_decRound_eq_blockDecrypt :
    (decRound k)^[32] ⟨v.1, v.2, cfg.sum0⟩ = ⟨(blockDecrypt k v).1, (blockDecrypt k v).2, 0#32⟩ := by
  have hsum : ((decRound k)^[32] ⟨v.1, v.2, cfg.sum0⟩).sum = 0#32 :=
    (iterate_decRound_sum_of_sum0 k v.1 v.2 le_rfl).trans sumAt_zero
  rw [blockDecrypt, cfg_times, rounds_eq_iterate, ← hsum]

theorem blockDecrypt_blockEncrypt : blockDecrypt k (blockEncrypt k v) = v := by
  have h := iterate_decRound_eq_blockDecrypt k (blockEncrypt k v)
  rw [← iterate_encRound_eq_blockEncrypt, (decRound_encRound k).iterate 32] at h
  obtain ⟨h0, h1, -⟩ := (BlockState.mk.injEq ..).mp h
  exact (Prod.ext h0 h1).symm

theorem blockEncrypt_blockDecrypt : blockEncrypt k (blockDecrypt k v) = v := by
  have h := iterate_encRound_eq_blockEncrypt k (blockDecrypt k v)
  rw [← iterate_decRound_eq_blockDecrypt, (encRound_decRound k).iterate 32] at h
  obtain ⟨h0, h1, -⟩ := (BlockState.mk.injEq ..).mp h
  exact (Prod.ext h0 h1).symm

end

/-- Settles O16: the working values after 32 rounds, and a transform with an inverse is a bijection. -/
theorem blockClosedForms : Obligations.BlockClosedForms := by
  unfold Obligations.BlockClosedForms
  refine fun k => ⟨fun v0 v1 => ?_, ?_, ?_⟩
  · have henc := iterate_encRound_eq_blockEncrypt k (v0, v1)
    have hdec := iterate_decRound_eq_blockDecrypt k (v0, v1)
    simp only [cfg_sum0] at henc hdec
    rw [henc, hdec]
    exact ⟨rfl, rfl, rfl, rfl⟩
  · exact Function.bijective_iff_has_inverse.mpr ⟨_, blockDecrypt_blockEncrypt k, blockEncrypt_blockDecrypt k⟩
  · exact Function.bijective_iff_has_inverse.mpr ⟨_, blockEncrypt_blockDecrypt k, blockDecrypt_blockEncrypt k⟩

/-- Settles O18: round by round, and over the 32 rounds because each transform ends on the accumulator of the other. -/
theorem blockTransformsAreInverse : Obligations.BlockTransformsAreInverse := by
  unfold Obligations.BlockTransformsAreInverse
  exact fun k => ⟨decRound_encRound k, fun v => ⟨blockDecrypt_blockEncrypt k v, blockEncrypt_blockDecrypt k v⟩⟩

end Sys2Proof.Machine
end

section
/-! PROOFS. The block commands (spec/42_block_transform.md R150, R151): the accept step, the rounds, and the finish. -/

namespace Sys2Proof.Machine

/-- R125, R121: the words of a block operand by the spec's sum. -/
theorem blockOfPayload_eq_leWord (b0 b1 b2 b3 b4 b5 b6 b7 : Byte) :
    blockOfPayload [b0, b1, b2, b3, b4, b5, b6, b7] = some (leWord b0 b1 b2 b3, leWord b4 b5 b6 b7) := by
  simp only [blockOfPayload_bytes, packWord_eq_leWord]

section
variable {s : State} {pl : Packet} {v : Word × Word} (hk : s.kv = true) (hv : blockOfPayload pl = some v)
include hk hv

theorem exec_encblk_of_block : exec (.encblk pl) s = .next (beginBlock .encblk v 0#32 s) :=
  congrArg _ (transform_of_operands hk hv)

theorem exec_decblk_of_block : exec (.decblk pl) s = .next (beginBlock .decblk v cfg.sum0 s) :=
  congrArg _ (transform_of_operands hk hv)

end

/-- R75: `n` steps after a block was loaded, `n` rounds of its transform are done. -/
theorem runSteps_beginBlock {s : State} (op : Op) (v : Word × Word) (sum : Word) (hr : HostAct.reset ∉ s.todo) {n : Nat}
    (hn : n ≤ 32) : ∃ w, runSteps n (beginBlock op v sum s) = .next w ∧ w.ph = .run ∧ w.rnd.toNat = n ∧
      (op = .encblk → w.blockState = (encRound s.k)^[n] ⟨v.1, v.2, sum⟩) ∧
      (op = .decblk → w.blockState = (decRound s.k)^[n] ⟨v.1, v.2, sum⟩) := by
  obtain ⟨w, hw, hp, hrnd, -, -, -, henc, hdec, -⟩ :=
    runSteps_rounds n (beginBlock op v sum s) rfl (.inl hr) (by simpa using hn)
  refine ⟨w, hw, hp, by simpa using hrnd, fun ho => ?_, fun ho => ?_⟩
  · rw [henc ho, rounds_eq_iterate]
    rfl
  · rw [hdec ho, rounds_eq_iterate]
    rfl

/-- R76: 33 steps after a transform began, its result is the response, and the key is as it was. -/
theorem runSteps_finish {t : State} (hp : t.ph = .run) (hrnd : t.rnd = 0#6) (hr : HostAct.reset ∉ t.todo) :
    ∃ u, runSteps 33 t = .next u ∧ u.ph = .resp ∧ u.k = t.k ∧ u.kv = t.kv ∧ u.delivered = t.delivered ∧
      u.rsp = okPacket (t.resultAfter cfg.times) := by
  obtain ⟨u, hu, hsession, hrsp, -⟩ := running_respondsIn cfg.times hp (by simp [hrnd]) (.inl hr)
  obtain ⟨hk, hkv⟩ := (Session.mk.injEq ..).mp hsession
  exact ⟨u, hu.reaches, hu.ph, hk, hkv, hu.delivered, hrsp⟩

/-- Settles O27: the block is loaded, its rounds run, and their result is `BlockEncrypt`'s; the errors by the decode order. -/
theorem encblkEncryptsTheBlock : Obligations.EncblkEncryptsTheBlock := by
  unfold Obligations.EncblkEncryptsTheBlock
  refine fun s => ⟨fun b0 b1 b2 b3 b4 b5 b6 b7 hk => ?_, fun pl hk => exec_of_no_key rfl hk,
    fun pl hk hn => exec_of_length_ne nofun (fun _ => hk) hn⟩
  refine ⟨_, exec_encblk_of_block hk (blockOfPayload_eq_leWord ..), rfl, fun hr => ⟨fun n hn => ?_, ?_⟩⟩
  · obtain ⟨w, hw, hp, hrnd, henc, -⟩ := runSteps_beginBlock .encblk _ _ hr hn
    exact ⟨w, hw, hp, hrnd, henc rfl⟩
  · exact runSteps_finish rfl rfl hr

/-- Settles O28: as for `ENCBLK`, from `SUM0` and with `BlockDecrypt`. -/
theorem decblkDecryptsTheBlock : Obligations.DecblkDecryptsTheBlock := by
  unfold Obligations.DecblkDecryptsTheBlock
  refine fun s => ⟨fun b0 b1 b2 b3 b4 b5 b6 b7 hk => ?_, fun pl hk => exec_of_no_key rfl hk,
    fun pl hk hn => exec_of_length_ne nofun (fun _ => hk) hn⟩
  refine ⟨_, exec_decblk_of_block hk (blockOfPayload_eq_leWord ..), rfl, fun hr => ⟨fun n hn => ?_, ?_⟩⟩
  · obtain ⟨w, hw, hp, hrnd, -, hdec⟩ := runSteps_beginBlock .decblk _ _ hr hn
    exact ⟨w, hw, hp, hrnd, hdec rfl⟩
  · exact runSteps_finish rfl rfl hr

end Sys2Proof.Machine
end

section
/-! PROOFS. The tail engine (spec/43_tail_diffusion.md R172 to R179): the round constant at each position, the two
directions as inverses, and the 32 equal rounds as one sum. -/

namespace Sys2Proof.Machine

/-! ### The round constant (R172, R173) -/

section
variable (k : KeyRegs) (pos : BitVec 3)

/-- R172, R52: the key byte of a position is a byte of `K[0]`. -/
theorem tailKeyByte_eq_div : tailKeyByte k pos = BitVec.ofNat 8 (k.k0.toNat / 2 ^ (8 * (pos.toNat % 4))) := by
  have hword : (⟨pos.toNat % 4 / 4, by omega⟩ : Fin 4) = 0 := Fin.ext (Nat.div_eq_of_lt (Nat.mod_lt _ (by decide)))
  rw [← wordByte_eq_div, tailKeyByte, KeyRegs.byte, hword, Nat.mod_mod]
  rfl

/-- R173: the constant from the two shifted pad values of a position. -/
theorem tailC_of_shifted_pad {m₁ m₂ : Byte} (h₁ : shl8 (padByte pos) 3 = m₁) (h₂ : shr8 (padByte pos) 2 = m₂) :
    tailC k pos = (m₁ + BitVec.ofNat 8 (k.k0.toNat / 2 ^ (8 * (pos.toNat % 4)))) ^^^
      (m₂ + BitVec.ofNat 8 (k.k0.toNat / 2 ^ (8 * (pos.toNat % 4)))) := by
  rw [← tailKeyByte_eq_div, ← h₁, ← h₂]
  rfl

end

/-- Settles O19: the key byte is a byte of `K[0]`, and the pad ROM gives the table of shifted pad values. -/
theorem tailConstantByPosition : Obligations.TailConstantByPosition := by
  unfold Obligations.TailConstantByPosition
  refine fun k => ⟨fun pos => rfl, fun k1 k2 k3 => ?exampleKeyA, ?_, ?_, ?_, ?_, ?_, ?_, ?_, ?_⟩
  case exampleKeyA => exact (tailC_of_shifted_pad _ 0#3 rfl rfl).trans (by dsimp only; decide)
  all_goals exact tailC_of_shifted_pad k _ rfl rfl

/-! ### The two directions (R174, R175, R178) -/

section
variable (k : KeyRegs) (pos : BitVec 3) (b : Byte)

theorem decTailRound_encTailRound : Function.LeftInverse (decTailRound k pos) (encTailRound k pos) :=
  fun x => sub8_add8 x _

theorem encTailRound_decTailRound : Function.LeftInverse (encTailRound k pos) (decTailRound k pos) :=
  fun x => add8_sub8 x _

theorem tailEncrypt_eq_iterate : tailEncrypt k pos b = (encTailRound k pos)^[32] b := rounds_eq_iterate _ _ _

theorem tailDecrypt_eq_iterate : tailDecrypt k pos b = (decTailRound k pos)^[32] b := rounds_eq_iterate _ _ _

theorem tailDecrypt_tailEncrypt : tailDecrypt k pos (tailEncrypt k pos b) = b := by
  rw [tailDecrypt_eq_iterate, tailEncrypt_eq_iterate, (decTailRound_encTailRound k pos).iterate 32]

theorem tailEncrypt_tailDecrypt : tailEncrypt k pos (tailDecrypt k pos b) = b := by
  rw [tailEncrypt_eq_iterate, tailDecrypt_eq_iterate, (encTailRound_decTailRound k pos).iterate 32]

end

/-- Settles O20: each round undoes the round of the other direction, so 32 of them undo 32. -/
theorem tailTransformsAreInverse : Obligations.TailTransformsAreInverse := by
  unfold Obligations.TailTransformsAreInverse
  exact fun k pos b => ⟨tailEncrypt_eq_iterate k pos b, tailDecrypt_eq_iterate k pos b, tailDecrypt_tailEncrypt k pos b,
    tailEncrypt_tailDecrypt k pos b⟩

/-! ### Equal rounds as one sum (R179) -/

/-- R179: `n` equal additions are one, of the multiple reduced to a byte. -/
theorem nsmul_eq_ofNat (n : Nat) (c : Byte) : n • c = BitVec.ofNat 8 (n * c.toNat % 256) := by
  apply BitVec.eq_of_toNat_eq
  rw [nsmul_eq_mul, BitVec.toNat_mul, BitVec.toNat_ofNat]
  simp

/-- R179 (b): values that agree modulo 8 still do after the key byte is added, so the low three bits cancel. -/
theorem xor_add_toNat_mod_eight {m₁ m₂ : Byte} (kb : Byte) (hm : m₁.toNat % 8 = m₂.toNat % 8) :
    ((m₁ + kb) ^^^ (m₂ + kb)).toNat % 8 = 0 := by
  have hlow : (m₁ + kb).toNat % 2 ^ 3 = (m₂ + kb).toNat % 2 ^ 3 := by
    simp only [BitVec.toNat_add]
    omega
  calc ((m₁ + kb) ^^^ (m₂ + kb)).toNat % 2 ^ 3
      = ((m₁ + kb).toNat % 2 ^ 3) ^^^ ((m₂ + kb).toNat % 2 ^ 3) := by rw [BitVec.toNat_xor, Nat.xor_mod_two_pow]
    _ = 0 := by rw [hlow, Nat.xor_self]

section
variable (k : KeyRegs) (pos : BitVec 3) (b : Byte)

theorem tailEncrypt_eq_add : tailEncrypt k pos b = add8 b (BitVec.ofNat 8 (32 * (tailC k pos).toNat % 256)) := by
  rw [tailEncrypt_eq_iterate, ← nsmul_eq_ofNat]
  exact add_right_iterate_apply (tailC k pos) b

theorem tailDecrypt_eq_sub : tailDecrypt k pos b = sub8 b (BitVec.ofNat 8 (32 * (tailC k pos).toNat % 256)) := by
  rw [← add8_eq_iff, ← tailEncrypt_eq_add, tailEncrypt_tailDecrypt]

theorem tail_move_eq_mul_mod : 32 * (tailC k pos).toNat % 256 = 32 * ((tailC k pos).toNat % 8) :=
  Nat.mul_mod_mul_left 32 (tailC k pos).toNat 8

/-- R179: the low five bits stay, for the byte moves by a multiple of 32. -/
theorem tailEncrypt_toNat_mod : (tailEncrypt k pos b).toNat % 32 = b.toNat % 32 := by
  have hmove := tail_move_eq_mul_mod k pos
  rw [tailEncrypt_eq_add, add8, BitVec.toNat_add, BitVec.toNat_ofNat]
  omega

theorem tailDecrypt_toNat_mod : (tailDecrypt k pos b).toNat % 32 = b.toNat % 32 := by
  rw [← tailEncrypt_toNat_mod k pos (tailDecrypt k pos b), tailEncrypt_tailDecrypt]

section
variable {k pos} (h : (tailC k pos).toNat % 8 = 0)
include h

/-- R179: only the low three bits of the constant matter. -/
theorem tailEncrypt_of_tailC_mod : tailEncrypt k pos b = b := by
  rw [tailEncrypt_eq_add, tail_move_eq_mul_mod, h]
  exact BitVec.add_zero b

theorem tailDecrypt_of_tailC_mod : tailDecrypt k pos b = b := by
  rw [tailDecrypt_eq_sub, tail_move_eq_mul_mod, h]
  exact BitVec.sub_zero b

end

/-- R179 (a): the two shifted pad values are equal. -/
theorem tailC_two : tailC k 2#3 = 0#8 := (tailC_of_shifted_pad k 2#3 rfl rfl).trans BitVec.xor_self

/-- R179 (b): both shifted pad values are multiples of 8. -/
theorem tailC_seven_mod : (tailC k 7#3).toNat % 8 = 0 := by
  rw [tailC_of_shifted_pad k 7#3 (m₁ := 0x08#8) (m₂ := 0x18#8) rfl rfl]
  exact xor_add_toNat_mod_eight _ (by decide)

end

/-- Settles O21: 32 additions are one; at positions 2 and 7 the low three bits of the constant are 0. -/
theorem tailMovesByMultiplesOf32 : Obligations.TailMovesByMultiplesOf32 := by
  unfold Obligations.TailMovesByMultiplesOf32
  intro k pos b
  have h2 : (tailC k 2#3).toNat % 8 = 0 := congrArg (·.toNat % 8) (tailC_two k)
  have h7 := tailC_seven_mod k
  exact ⟨tailEncrypt_eq_add k pos b, tailDecrypt_eq_sub k pos b, tail_move_eq_mul_mod k pos, tailEncrypt_toNat_mod k pos b,
    tailDecrypt_toNat_mod k pos b, tailC_two k, h7, tailEncrypt_of_tailC_mod b h2, tailEncrypt_of_tailC_mod b h7,
    tailDecrypt_of_tailC_mod b h2, tailDecrypt_of_tailC_mod b h7⟩

end Sys2Proof.Machine
end

section
/-! PROOFS. The tail commands (spec/43_tail_diffusion.md R176, R177): the accept step, the rounds, and the finish, which is
that of a block command. -/

namespace Sys2Proof.Machine

/-- R83 (c): the three low bits of the position byte are its value modulo 8. -/
theorem posOfByte_eq_mod (p : Byte) : posOfByte p = BitVec.ofNat 3 (p.toNat % 8) := by
  apply BitVec.eq_of_toNat_eq
  simp [posOfByte]

theorem tailOfPayload_bytes (p dat : Byte) : tailOfPayload [p, dat] = some (BitVec.ofNat 3 (p.toNat % 8), dat) := by
  rw [← posOfByte_eq_mod]
  rfl

section
variable {s : State} {pl : Packet} {a : BitVec 3 × Byte} (hk : s.kv = true) (ha : tailOfPayload pl = some a)
include hk ha

theorem exec_enctail_of_operands : exec (.enctail pl) s = .next (beginTail .enctail a s) :=
  congrArg _ (transform_of_operands hk ha)

theorem exec_dectail_of_operands : exec (.dectail pl) s = .next (beginTail .dectail a s) :=
  congrArg _ (transform_of_operands hk ha)

end

/-- R75, R76: `n` steps after a tail byte was loaded, `n` rounds `f` of its transform are done; after the finish, the
result of all of them is the response. -/
theorem runSteps_beginTail {s : State} {op : Op} {a : BitVec 3 × Byte} {f : Byte → Byte}
    (hf : op = .enctail ∧ f = encTailRound s.k a.1 ∨ op = .dectail ∧ f = decTailRound s.k a.1)
    (hr : HostAct.reset ∉ s.todo) :
    (∀ n, n ≤ 32 → ∃ w, runSteps n (beginTail op a s) = .next w ∧ w.ph = .run ∧ w.rnd.toNat = n ∧
        w.sAcc = f^[n] a.2) ∧
      ∃ u, runSteps 33 (beginTail op a s) = .next u ∧ u.ph = .resp ∧ u.k = s.k ∧ u.kv = s.kv ∧
        u.delivered = s.delivered ∧ u.rsp = okPacket [rounds f cfg.times a.2] := by
  refine ⟨fun n hn => ?_, ?_⟩
  · obtain ⟨w, hw, hp, hrnd, -, -, -, -, -, henc, hdec⟩ :=
      runSteps_rounds n (beginTail op a s) rfl (.inl hr) (by simpa using hn)
    refine ⟨w, hw, hp, by simpa using hrnd, ?_⟩
    rw [← rounds_eq_iterate]
    obtain ⟨hop, rfl⟩ | ⟨hop, rfl⟩ := hf
    · exact henc hop
    · exact hdec hop
  · obtain ⟨rfl, rfl⟩ | ⟨rfl, rfl⟩ := hf
    · exact runSteps_finish rfl rfl hr
    · exact runSteps_finish rfl rfl hr

/-- Settles O29: the byte is loaded, its rounds run, and their result is `TailEncrypt`'s; the errors by the decode order. -/
theorem enctailEncryptsTheByte : Obligations.EnctailEncryptsTheByte := by
  unfold Obligations.EnctailEncryptsTheByte
  refine fun s => ⟨fun p dat hk => ?_, fun pl hk => exec_of_no_key rfl hk,
    fun pl hk hn => exec_of_length_ne nofun (fun _ => hk) hn⟩
  exact ⟨_, exec_enctail_of_operands hk (tailOfPayload_bytes p dat), rfl, runSteps_beginTail (.inl ⟨rfl, rfl⟩)⟩

/-- Settles O30: as for `ENCTAIL`, with `TailDecrypt`. -/
theorem dectailDecryptsTheByte : Obligations.DectailDecryptsTheByte := by
  unfold Obligations.DectailDecryptsTheByte
  refine fun s => ⟨fun p dat hk => ?_, fun pl hk => exec_of_no_key rfl hk,
    fun pl hk hn => exec_of_length_ne nofun (fun _ => hk) hn⟩
  exact ⟨_, exec_dectail_of_operands hk (tailOfPayload_bytes p dat), rfl, runSteps_beginTail (.inr ⟨rfl, rfl⟩)⟩

end Sys2Proof.Machine
end

section
/-! PROOFS. Whole messages (spec/44_cipher_engine.md R190, R194 to R198): the split, and `Encrypt` and `Decrypt` by induction over
the message, one block at a time. -/

namespace Sys2Proof.Machine

/-! ### The split, by the length alone (R190) -/

section
variable (msg : List Byte)

theorem alignedLen_eq : alignedLen msg = msg.length / 8 * 8 := rfl

theorem numBlocks_eq : numBlocks msg = msg.length / 8 := Nat.mul_div_left _ (by decide)

theorem tailLen_eq : tailLen msg = msg.length % 8 := by
  rw [tailLen, alignedLen_eq]
  omega

theorem msgBlock_eq (b : Nat) : msgBlock msg b = (msg.drop (8 * b)).take 8 := by
  simp [msgBlock, slice, List.drop_take]

@[simp] theorem msgBlocks_length : (msgBlocks msg).length = numBlocks msg := by simp [msgBlocks]

@[simp] theorem msgTail_length : (msgTail msg).length = tailLen msg := by simp [msgTail, tailLen]

/-- R201: a tail byte carries its absolute position. -/
theorem msgTail_getElem? (j : Nat) :
    (msgTail msg)[j]? = (msg[alignedLen msg + j]?).map fun x => (x, alignedLen msg + j) := by
  simp [msgTail, List.getElem?_zipIdx]

end

/-! ### A message is short, or a block and a message -/

/-- Induction over a message, a block at a time from the front. -/
theorem message_induction {P : List Byte → Prop} (short : ∀ msg, msg.length < 8 → P msg)
    (block : ∀ blk rest, blk.length = 8 → P rest → P (blk ++ rest)) (msg : List Byte) : P msg :=
  if h : msg.length < 8 then short msg h
  else
    List.take_append_drop 8 msg ▸
      block _ _ (List.length_take_of_le (by omega)) (message_induction short block (msg.drop 8))
termination_by msg.length
decreasing_by simp only [List.length_drop]; omega

section
variable {msg : List Byte} (h : msg.length < 8)
include h

theorem msgBlocks_of_short : msgBlocks msg = [] := by
  simp [msgBlocks, numBlocks_eq, Nat.div_eq_of_lt h]

theorem msgTail_of_short : msgTail msg = msg.zipIdx := by
  simp [msgTail, alignedLen_eq, Nat.div_eq_of_lt h]

end

section
variable {blk : List Byte} (h : blk.length = 8) (rest : List Byte)
include h

theorem alignedLen_append : alignedLen (blk ++ rest) = 8 + alignedLen rest := by
  simp only [alignedLen_eq, List.length_append, h]
  omega

theorem msgBlocks_append : msgBlocks (blk ++ rest) = blk :: msgBlocks rest := by
  have hnum : numBlocks (blk ++ rest) = numBlocks rest + 1 := by
    simp only [numBlocks_eq, List.length_append, h]
    omega
  have hfirst : msgBlock (blk ++ rest) 0 = blk := by simp [msgBlock_eq, ← h]
  have hnext (b : Nat) : msgBlock (blk ++ rest) (b + 1) = msgBlock rest b := by
    rw [msgBlock_eq, msgBlock_eq, Nat.mul_succ, Nat.add_comm, ← List.drop_drop, ← h, List.drop_left]
  simp [msgBlocks, hnum, List.range_succ_eq_map, hfirst, hnext]

theorem msgTail_append : msgTail (blk ++ rest) = (msgTail rest).map fun bi => (bi.1, 8 + bi.2) := by
  apply List.ext_getElem?
  intro j
  have hskip : 8 + alignedLen rest + j - 8 = alignedLen rest + j := by omega
  rw [msgTail_getElem?, alignedLen_append h, List.getElem?_append_right (by omega), h, hskip, List.getElem?_map,
    msgTail_getElem?, Option.map_map]
  simp [Function.comp_def, Nat.add_assoc]

end

theorem length_of_mem_msgBlocks (msg : List Byte) : ∀ b ∈ msgBlocks msg, b.length = 8 := by
  induction msg using message_induction with
  | short msg h => simp [msgBlocks_of_short h]
  | block blk rest h ih => simpa [msgBlocks_append h, h] using ih

/-- R190: the blocks and the tail bytes after them are the message. -/
theorem msgBlocks_flatten_append_msgTail (msg : List Byte) : (msgBlocks msg).flatten ++ (msgTail msg).map (·.1) = msg := by
  induction msg using message_induction with
  | short msg h => simp [msgBlocks_of_short h, msgTail_of_short h]
  | block blk rest h ih =>
    rw [msgBlocks_append h, msgTail_append h, List.map_map, List.flatten_cons, List.append_assoc]
    exact congrArg (blk ++ ·) ih

/-- Settles O56: the numbers from the length, the parts by induction over the message, a tail byte by its index. -/
theorem messageSplit : Obligations.MessageSplit := by
  unfold Obligations.MessageSplit
  refine fun msg => ⟨alignedLen_eq msg, tailLen_eq msg, numBlocks_eq msg, msgBlocks_length msg, length_of_mem_msgBlocks msg,
    msgBlocks_flatten_append_msgTail msg, msgTail_length msg, fun j b i h => ?_⟩
  have hj : j < tailLen msg := msgTail_length msg ▸ (List.getElem?_eq_some_iff.mp h).1
  rw [msgTail_getElem?] at h
  obtain ⟨x, hx, e⟩ := Option.map_eq_some_iff.mp h
  cases e
  refine ⟨rfl, hx, ?_⟩
  rw [tailLen_eq] at hj
  rw [alignedLen_eq]
  omega

/-! ### The block function of a message (R194) -/

section
variable {f g : Word × Word → Word × Word} {blk o : List Byte}

/-- R125, R124: the block operand of two words' bytes. -/
theorem blockOfPayload_wordsToBytes (w₀ w₁ : Word) : blockOfPayload (wordsToBytes [w₀, w₁]) = some (w₀, w₁) := by
  rw [blockOfPayload, if_pos (show _ = cfg.blockLen from wordsToBytes_length _), bytesToWords_wordsToBytes]
  rfl

theorem exists_blockBytes (f : Word × Word → Word × Word) (h : blk.length = 8) : ∃ o, blockBytes f blk = some o := by
  obtain ⟨v, hv⟩ := Option.isSome_iff_exists.mp ((blockOfPayload_isSome_iff blk).mpr h)
  exact ⟨_, blockBytes_of_operand f hv⟩

theorem length_of_blockBytes (h : blockBytes f blk = some o) : blk.length = 8 := by
  obtain ⟨v, hv, -⟩ := Option.map_eq_some_iff.mp h
  exact (blockOfPayload_isSome_iff blk).mp (by simp [hv])

theorem blockBytes_length (h : blockBytes f blk = some o) : o.length = 8 := by
  obtain ⟨v, -, rfl⟩ := Option.map_eq_some_iff.mp h
  exact wordsToBytes_length _

/-- R154: a block comes back when the word transform is undone. -/
theorem blockBytes_leftInverse (hgf : Function.LeftInverse g f) (h : blockBytes f blk = some o) :
    blockBytes g o = some blk := by
  obtain ⟨v, hv, rfl⟩ := Option.map_eq_some_iff.mp h
  rw [blockBytes_of_operand g (blockOfPayload_wordsToBytes _ _), hgf v, wordsToBytes_blockOfPayload hv]

end

/-! ### The function of a message: its value on a short message, and on a block and a message (R194, R195) -/

section
variable {f g : Word × Word → Word × Word} {t u : BitVec 3 → Byte → Byte}

theorem transformMessage_of_short {msg : List Byte} (h : msg.length < 8) :
    transformMessage f t msg = some (msg.mapIdx fun i x => t (BitVec.ofNat 3 i) x) := by
  simp [transformMessage, msgBlocks_of_short h, msgTail_of_short h, List.mapIdx_eq_zipIdx_map]

/-- The positions of the tail are the same modulo 8 after a block more. -/
theorem ofNat_add_eight (i : Nat) : BitVec.ofNat 3 (8 + i) = BitVec.ofNat 3 i :=
  BitVec.eq_of_toNat_eq (by simp)

theorem transformMessage_append {blk : List Byte} (h : blk.length = 8) (rest : List Byte) :
    transformMessage f t (blk ++ rest) =
      (blockBytes f blk).bind fun o => (transformMessage f t rest).map fun e => o ++ e := by
  cases hb : blockBytes f blk <;> cases hr : (msgBlocks rest).mapM (blockBytes f) <;>
    simp [transformMessage, msgBlocks_append h, msgTail_append h, hb, hr, Function.comp_def, ofNat_add_eight]

theorem transformMessage_append_eq_some_iff {blk rest e : List Byte} (h : blk.length = 8) :
    transformMessage f t (blk ++ rest) = some e ↔
      ∃ o e', blockBytes f blk = some o ∧ transformMessage f t rest = some e' ∧ o ++ e' = e := by
  simp [transformMessage_append h, Option.bind_eq_some_iff]

/-- R196: every message has a result, of its own length. -/
theorem exists_transformMessage (f : Word × Word → Word × Word) (t : BitVec 3 → Byte → Byte) (msg : List Byte) :
    ∃ e, transformMessage f t msg = some e ∧ e.length = msg.length := by
  induction msg using message_induction with
  | short msg h => exact ⟨_, transformMessage_of_short h, List.length_mapIdx⟩
  | block blk rest h ih =>
    obtain ⟨o, ho⟩ := exists_blockBytes f h
    obtain ⟨e, he, hlen⟩ := ih
    refine ⟨o ++ e, (transformMessage_append_eq_some_iff h).mpr ⟨o, e, ho, he, rfl⟩, ?_⟩
    rw [List.length_append, List.length_append, blockBytes_length ho, h, hlen]

/-- R197: a message comes back when the block transform and the tail transform are undone. -/
theorem transformMessage_leftInverse (hgf : Function.LeftInverse g f) (hut : ∀ p, Function.LeftInverse (u p) (t p))
    {msg e : List Byte} (he : transformMessage f t msg = some e) : transformMessage g u e = some msg := by
  induction msg using message_induction generalizing e with
  | short msg h =>
    rw [transformMessage_of_short h, Option.some.injEq] at he
    subst he
    rw [transformMessage_of_short (by simpa using h), List.mapIdx_mapIdx]
    exact congrArg some (List.ext_getElem? fun i => by simp [Function.comp_def, (hut _).eq])
  | block blk rest h ih =>
    obtain ⟨o, e', ho, he', rfl⟩ := (transformMessage_append_eq_some_iff h).mp he
    exact (transformMessage_append_eq_some_iff (blockBytes_length ho)).mpr
      ⟨blk, rest, blockBytes_leftInverse hgf ho, ih he', rfl⟩

/-- R194: each output block is the block function of the input block at the same place. -/
theorem transformMessage_block {msg e : List Byte} (he : transformMessage f t msg = some e) {b : Nat}
    (hb : b < msg.length / 8) : blockBytes f ((msg.drop (8 * b)).take 8) = some ((e.drop (8 * b)).take 8) := by
  induction msg using message_induction generalizing e b with
  | short msg h => omega
  | block blk rest h ih =>
    obtain ⟨o, e', ho, he', rfl⟩ := (transformMessage_append_eq_some_iff h).mp he
    have hlen := blockBytes_length ho
    cases b with
    | zero => rwa [Nat.mul_zero, List.drop_zero, List.drop_zero, List.take_left' h, List.take_left' hlen]
    | succ b =>
      rw [List.length_append, h] at hb
      rw [Nat.mul_succ, Nat.add_comm, ← List.drop_drop, ← List.drop_drop, List.drop_left' h, List.drop_left' hlen]
      exact ih he' (by omega)

/-- R194: each output byte of the tail is the tail function of the input byte at the same place. -/
theorem transformMessage_tail {msg e : List Byte} (he : transformMessage f t msg = some e) {i : Nat} {x : Byte}
    (hi : msg.length / 8 * 8 ≤ i) (hx : msg[i]? = some x) : e[i]? = some (t (BitVec.ofNat 3 i) x) := by
  induction msg using message_induction generalizing e i with
  | short msg h =>
    rw [transformMessage_of_short h, Option.some.injEq] at he
    simp [← he, hx]
  | block blk rest h ih =>
    obtain ⟨o, e', ho, he', rfl⟩ := (transformMessage_append_eq_some_iff h).mp he
    have hlen := blockBytes_length ho
    rw [List.length_append, h] at hi
    obtain ⟨i, rfl⟩ := Nat.exists_eq_add_of_le (show 8 ≤ i by omega)
    rw [List.getElem?_append_right (by omega), h, Nat.add_sub_cancel_left] at hx
    rw [List.getElem?_append_right (by omega), hlen, Nat.add_sub_cancel_left, ofNat_add_eight]
    exact ih he' (by omega) hx

/-- R198: the result of the first `n` blocks is the first part of the result. -/
theorem transformMessage_take {msg e : List Byte} (he : transformMessage f t msg = some e) {n : Nat}
    (hn : 8 * n ≤ msg.length) : transformMessage f t (msg.take (8 * n)) = some (e.take (8 * n)) := by
  induction n generalizing msg e with
  | zero => exact transformMessage_of_short (by simp)
  | succ n ih =>
    obtain ⟨blk, rest, rfl, h⟩ : ∃ blk rest, msg = blk ++ rest ∧ blk.length = 8 :=
      ⟨msg.take 8, msg.drop 8, (List.take_append_drop 8 msg).symm, List.length_take_of_le (by omega)⟩
    obtain ⟨o, e', ho, he', rfl⟩ := (transformMessage_append_eq_some_iff h).mp he
    have hlen := blockBytes_length ho
    rw [List.length_append, h] at hn
    have htake {a : List Byte} (b : List Byte) (ha : a.length = 8) : (a ++ b).take (8 * (n + 1)) = a ++ b.take (8 * n) := by
      rw [Nat.mul_succ, Nat.add_comm, ← ha, List.take_length_add_append]
    rw [htake rest h, htake e' hlen, transformMessage_append_eq_some_iff h]
    exact ⟨o, _, ho, ih he' (by omega), rfl⟩

end

/-! ### Encrypt and Decrypt -/

/-- R191: a key of another length gives nothing. -/
theorem encrypt_decrypt_of_length_ne {key : List Byte} (h : key.length ≠ 16) (msg : List Byte) :
    encrypt msg key = none ∧ decrypt msg key = none := by
  simp [encrypt, decrypt, keyOfPayload_of_length_ne h]

section
variable {key : List Byte} {k : KeyRegs} (hk : keyOfPayload key = some k) (msg : List Byte)
include hk

theorem encrypt_of_key : encrypt msg key = transformMessage (blockEncrypt k) (tailEncrypt k) msg := by
  rw [encrypt, hk, Option.bind_some]

theorem decrypt_of_key : decrypt msg key = transformMessage (blockDecrypt k) (tailDecrypt k) msg := by
  rw [decrypt, hk, Option.bind_some]

end

/-- Settles O58: both transforms of a key undo each other, so by induction over the message both functions do. -/
theorem messageRoundTrip : Obligations.MessageRoundTrip := by
  unfold Obligations.MessageRoundTrip
  intro msg key hkey
  obtain ⟨k, hk⟩ := Option.isSome_iff_exists.mp ((keyOfPayload_isSome_iff key).mpr hkey)
  obtain ⟨e, he, helen⟩ := exists_transformMessage (blockEncrypt k) (tailEncrypt k) msg
  obtain ⟨d, hd, hdlen⟩ := exists_transformMessage (blockDecrypt k) (tailDecrypt k) msg
  simp only [encrypt_of_key hk, decrypt_of_key hk]
  exact ⟨e, d, he, helen, transformMessage_leftInverse (blockDecrypt_blockEncrypt k) (tailDecrypt_tailEncrypt k) he,
    hd, hdlen, transformMessage_leftInverse (blockEncrypt_blockDecrypt k) (tailEncrypt_tailDecrypt k) hd⟩

/-- Settles O57: the units of each function, the position of a tail byte modulo 8. -/
theorem messageFunctionsUnitByUnit : Obligations.MessageFunctionsUnitByUnit := by
  unfold Obligations.MessageFunctionsUnitByUnit
  refine fun msg key => ⟨fun h => encrypt_decrypt_of_length_ne h msg, fun k hk => ?_⟩
  obtain ⟨e, he, -⟩ := exists_transformMessage (blockEncrypt k) (tailEncrypt k) msg
  obtain ⟨d, hd, -⟩ := exists_transformMessage (blockDecrypt k) (tailDecrypt k) msg
  have hpos (i : Nat) : BitVec.ofNat 3 (i % 8) = BitVec.ofNat 3 i := BitVec.eq_of_toNat_eq (by simp)
  simp only [encrypt_of_key hk, decrypt_of_key hk, hpos]
  exact ⟨e, d, he, hd, fun b hb => ⟨(transformMessage_block he hb).symm, (transformMessage_block hd hb).symm⟩,
    fun i x hi hx => ⟨transformMessage_tail he hi hx, transformMessage_tail hd hi hx⟩⟩

/-- Settles O59: the first parts of both results are the encryption of what the two messages share. -/
theorem alignedPrefixIsIndependent : Obligations.AlignedPrefixIsIndependent := by
  unfold Obligations.AlignedPrefixIsIndependent
  intro key m₁ m₂ e₁ e₂ n h₁ h₂ hn₁ hn₂ hm
  obtain ⟨k, hk, h₁⟩ := Option.bind_eq_some_iff.mp h₁
  rw [encrypt_of_key hk] at h₂
  have hshared := transformMessage_take h₁ hn₁
  rw [hm, transformMessage_take h₂ hn₂] at hshared
  exact (Option.some.inj hshared).symm

end Sys2Proof.Machine
end

section
/-! PROOFS. The driver on the machine (spec/44_cipher_engine.md R191 to R193, R199, R200): one exchange, the units of a call
one after the other, and a call. -/

namespace Sys2Proof.Machine

/-! ### One exchange (R192) -/

/-- From `s` CORE has served `n` commands: it is in `IDLE`, in state `t` with the session `c`, and each command had its one
response (R63). -/
structure State.Serves (n : Nat) (c : Session) (s t : State) : Prop where
  ph : t.ph = .idle
  rsp : t.rsp = []
  session : t.session = c
  delivered : t.delivered.length = s.delivered.length + n

/-- One command more at the start. -/
theorem State.Serves.of_first {n : Nat} {c c' : Session} {s t u : State} (h : t.Serves n c' u) (h₁ : s.Serves 1 c t) :
    s.Serves (n + 1) c' u :=
  ⟨h.ph, h.rsp, h.session, by rw [h.delivered, h₁.delivered, Nat.add_assoc, Nat.add_comm 1]⟩

theorem stepsOf_le (c : Session) (p : Packet) : stepsOf c p ≤ 34 := by
  unfold stepsOf
  cases verdict c.kv p with
  | error e => simp
  | ok i => cases hi : i.opcode.needsKey <;> simp [hi]

/-- R71: CORE stays as it is in `IDLE` while the host does nothing. -/
theorem runSteps_of_idle {t : State} (hp : t.ph = .idle) (ht : t.todo = []) (n : Nat) : runSteps n t = .next t := by
  have hstep : step t = .next t := by
    rw [step_of_wait (by simp [ht]) (.inl ⟨hp, by simp [ht]⟩), State.passTime_of_no_wait (by simp [ht])]
  induction n with
  | zero => rfl
  | succ n ih => rw [runSteps_succ_of_next n hstep, ih]

/-- R89: an exchange gives the response and the session of the atomic reading. -/
theorem exchange_of_answer {s : State} {p r : Packet} {c : Session} (hp : s.ph = .idle)
    (ha : answer s.session p = some (c, r)) : ∃ t, exchange p s = some (r, t) ∧ s.Serves 1 c t := by
  obtain ⟨c', r', -, t, ha', -, -, -, -, -, -, hrun, hph, hrsp, hsession, htodo, hdelivered⟩ :=
    machineRefinesAtomicReading (s.withTodo [.send p, .take]) p [] hp rfl
  cases ha.symm.trans ha'
  obtain ⟨n, hn⟩ : ∃ n, exchangeSteps = stepsOf s.session p + 1 + n :=
    Nat.exists_eq_add_of_le (Nat.succ_le_succ (stepsOf_le _ _))
  have hall : runSteps exchangeSteps (s.withTodo [.send p, .take]) = .next t := by
    rw [hn]
    exact (runSteps_add_of_next _ n hrun).trans (runSteps_of_idle hph htodo n)
  refine ⟨t, ?_, hph, hrsp, hsession, by simp [hdelivered]⟩
  simp [exchange, hall, hdelivered]

/-! ### The commands of a call under the atomic reading -/

theorem answer_encode {c : Session} {i : Instr} (hn : i.payload.length = i.opcode.payloadLen)
    (hk : i.opcode.needsKey = true → c.kv = true) : answer c (encode i) = performAtomic c i := by
  have hverdict : verdict c.kv (encode i) = .ok i := by
    simpa [verdict, decode_encode, hn] using hk
  rw [answer, hverdict]

theorem answer_ldkey {c : Session} {key : Packet} {k : KeyRegs} (hk : keyOfPayload key = some k) :
    answer c (encode (.ldkey key)) = some (⟨k, true⟩, okPacket []) :=
  (answer_encode (i := .ldkey key) ((keyOfPayload_isSome_iff key).mp (by simp [hk])) nofun).trans
    (congrArg (Option.map _) hk)

theorem answer_ldkey_of_length_ne {c : Session} {key : Packet} (h : key.length ≠ 16) :
    answer c (encode (.ldkey key)) = some (⟨.zero, false⟩, [0x01#8, min255 key.length]) := by
  have hverdict : verdict c.kv (encode (.ldkey key)) = .error (.invalidKeyLength key.length) := by
    rw [verdict, decode_encode]
    exact if_pos ⟨rfl, h⟩
  rw [answer, hverdict]
  rfl

theorem answer_clrkey (c : Session) : answer c (encode (.clrkey [])) = some (⟨.zero, false⟩, okPacket []) :=
  answer_encode rfl nofun

/-- Under the session `c` the command `i` is answered `OK` with `body`, and the session stays. -/
def Session.Performs (c : Session) (i : Instr) (body : Packet) : Prop := answer c (encode i) = some (c, okPacket body)

/-- R201, R83: the position byte of a tail command is the position modulo 256, of which the low three bits count. -/
theorem tailOfPayload_position (i : Nat) (x : Byte) :
    tailOfPayload [BitVec.ofNat 8 i, x] = some (BitVec.ofNat 3 i, x) := by
  rw [tailOfPayload_bytes]
  exact congrArg (fun p => some (p, x)) (BitVec.eq_of_toNat_eq (by simp))

section
variable {c : Session} (hc : c.kv = true)
include hc

theorem performs_encblk {blk o : Packet} (h : blockBytes (blockEncrypt c.k) blk = some o) : c.Performs (.encblk blk) o :=
  (answer_encode (i := .encblk blk) (length_of_blockBytes h) fun _ => hc).trans (congrArg (Option.map _) h)

theorem performs_decblk {blk o : Packet} (h : blockBytes (blockDecrypt c.k) blk = some o) : c.Performs (.decblk blk) o :=
  (answer_encode (i := .decblk blk) (length_of_blockBytes h) fun _ => hc).trans (congrArg (Option.map _) h)

theorem performs_enctailAt (i : Nat) (x : Byte) :
    c.Performs (.enctailAt i x) [tailEncrypt c.k (BitVec.ofNat 3 i) x] :=
  (answer_encode (i := .enctail [BitVec.ofNat 8 i, x]) rfl fun _ => hc).trans
    (by rw [performAtomic, tailOfPayload_position, Option.map_some])

theorem performs_dectailAt (i : Nat) (x : Byte) :
    c.Performs (.dectailAt i x) [tailDecrypt c.k (BitVec.ofNat 3 i) x] :=
  (answer_encode (i := .dectail [BitVec.ofNat 8 i, x]) rfl fun _ => hc).trans
    (by rw [performAtomic, tailOfPayload_position, Option.map_some])

end

/-! ### The units of a message (R192, R193, R194) -/

theorem forall₂_of_mapM_eq_some {α β : Type} {f : α → Option β} {l : List α} {m : List β} (h : l.mapM f = some m) :
    List.Forall₂ (fun a b => f a = some b) l m := by
  induction l generalizing m with
  | nil =>
    cases h
    exact .nil
  | cons a l ih =>
    simp only [List.mapM_cons, Option.bind_eq_bind, Option.bind_eq_some_iff] at h
    obtain ⟨b, hb, m', hm, e⟩ := h
    cases e
    exact .cons hb (ih hm)

/-- The bodies of the units' responses, in the order of the units, are the function of the message. -/
theorem performs_units {c : Session} {f : Word × Word → Word × Word} {t : BitVec 3 → Byte → Byte} {blkCmd : Packet → Instr}
    {tailCmd : Nat → Byte → Instr} (hblk : ∀ blk o, blockBytes f blk = some o → c.Performs (blkCmd blk) o)
    (htail : ∀ i x, c.Performs (tailCmd i x) [t (BitVec.ofNat 3 i) x]) {msg e : List Byte}
    (he : transformMessage f t msg = some e) :
    ∃ bodies, e = bodies.flatten ∧
      List.Forall₂ c.Performs ((msgBlocks msg).map blkCmd ++ (msgTail msg).map fun bi => tailCmd bi.2 bi.1) bodies := by
  obtain ⟨bs, hbs, rfl⟩ := Option.map_eq_some_iff.mp he
  refine ⟨bs ++ (msgTail msg).map fun bi => [t (BitVec.ofNat 3 bi.2) bi.1], ?_, List.rel_append ?_ ?_⟩
  · rw [List.flatten_append, ← List.flatMap_def, List.map_eq_flatMap]
  · exact List.forall₂_map_left_iff.mpr ((forall₂_of_mapM_eq_some hbs).imp hblk)
  · exact List.forall₂_map_left_iff.mpr (List.forall₂_map_right_iff.mpr (List.forall₂_same.mpr fun bi _ => htail bi.2 bi.1))

theorem encUnits_length (msg : List Byte) : (encUnits msg).length = msg.length / 8 + msg.length % 8 := by
  simp [encUnits, numBlocks_eq, tailLen_eq]

theorem decUnits_length (msg : List Byte) : (decUnits msg).length = msg.length / 8 + msg.length % 8 := by
  simp [decUnits, numBlocks_eq, tailLen_eq]

/-! ### A call (R191, R199, R200) -/

/-- Units that are performed one after the other append their bodies to the output; then the key is erased. -/
theorem sendUnits_of_performs {c : Session} {units : List Instr} {bodies : List Packet}
    (h : List.Forall₂ c.Performs units bodies) {s : State} (hp : s.ph = .idle) (hs : s.session = c) (out : List Byte) :
    ∃ t, sendUnits units out s = some (.done (out ++ bodies.flatten), t) ∧
      s.Serves (units.length + 1) ⟨.zero, false⟩ t := by
  induction h generalizing s out with
  | nil =>
    obtain ⟨t, ht, hserves⟩ := exchange_of_answer hp (answer_clrkey s.session)
    exact ⟨t, by simp [sendUnits, endCall, ht], hserves⟩
  | @cons i body units bodies hi _ ih =>
    obtain ⟨t, ht, hserves⟩ := exchange_of_answer hp (hs ▸ hi)
    obtain ⟨u, hu, hserves'⟩ := ih hserves.ph (hserves.session.trans hs) (out ++ body)
    exact ⟨u, by simpa [sendUnits, ht, okBody, okPacket] using hu, hserves'.of_first hserves⟩

theorem call_of_performs {key : List Byte} {k : KeyRegs} (hk : keyOfPayload key = some k) {units : List Instr}
    {bodies : List Packet} (h : List.Forall₂ (Session.Performs ⟨k, true⟩) units bodies) {s : State} (hp : s.ph = .idle) :
    ∃ t, call key units s = some (.done bodies.flatten, t) ∧ s.Serves (units.length + 2) ⟨.zero, false⟩ t := by
  obtain ⟨t, ht, hserves⟩ := exchange_of_answer hp (answer_ldkey (c := s.session) hk)
  obtain ⟨u, hu, hserves'⟩ := sendUnits_of_performs h hserves.ph hserves.session []
  exact ⟨u, by simpa [call, ht, okBody, okPacket] using hu, hserves'.of_first hserves⟩

/-- R191, R199: a key of another length ends the call after its first command. -/
theorem call_of_length_ne {key : List Byte} (h : key.length ≠ 16) {s : State} (hp : s.ph = .idle) :
    ∃ t, (∀ units, call key units s = some (.failed [0x01#8, min255 key.length], t)) ∧ s.Serves 1 ⟨.zero, false⟩ t := by
  obtain ⟨t, ht, hserves⟩ := exchange_of_answer hp (answer_ldkey_of_length_ne (c := s.session) h)
  exact ⟨t, fun units => by simp [call, ht, okBody, Status.code], hserves⟩

section
variable {key : List Byte} {k : KeyRegs} (hk : keyOfPayload key = some k) {s : State} (hp : s.ph = .idle) {msg : List Byte}
include hk hp

/-- R192, R194: `ENCMSG` returns `Encrypt`. -/
theorem encMsg_of_encrypt {e : List Byte} (he : encrypt msg key = some e) :
    ∃ t, encMsg key msg s = some (.done e, t) ∧ s.Serves (msg.length / 8 + msg.length % 8 + 2) ⟨.zero, false⟩ t := by
  rw [encrypt_of_key hk] at he
  obtain ⟨bodies, rfl, h⟩ :=
    performs_units (c := ⟨k, true⟩) (fun _ _ => performs_encblk rfl) (performs_enctailAt rfl) he
  exact encUnits_length msg ▸ call_of_performs hk h hp

/-- R193, R194: `DECMSG` returns `Decrypt`. -/
theorem decMsg_of_decrypt {d : List Byte} (hd : decrypt msg key = some d) :
    ∃ t, decMsg key msg s = some (.done d, t) ∧ s.Serves (msg.length / 8 + msg.length % 8 + 2) ⟨.zero, false⟩ t := by
  rw [decrypt_of_key hk] at hd
  obtain ⟨bodies, rfl, h⟩ :=
    performs_units (c := ⟨k, true⟩) (fun _ _ => performs_decblk rfl) (performs_dectailAt rfl) hd
  exact decUnits_length msg ▸ call_of_performs hk h hp

end

/-- Settles O60: each unit by the atomic reading of its command, the units by induction; a bad key at the first command. -/
theorem driverComputesTheMessageFunctions : Obligations.DriverComputesTheMessageFunctions := by
  unfold Obligations.DriverComputesTheMessageFunctions
  refine fun key msg s hp => ⟨fun hkey => ?_, fun hkey => ?_⟩
  · obtain ⟨k, hk⟩ := Option.isSome_iff_exists.mp ((keyOfPayload_isSome_iff key).mpr hkey)
    obtain ⟨e, d, he, -, -, hd, -⟩ := messageRoundTrip msg key hkey
    obtain ⟨t, ht, htph, htrsp, htsession, htdelivered⟩ := encMsg_of_encrypt hk hp he
    obtain ⟨u, hu, huph, hursp, husession, hudelivered⟩ := decMsg_of_decrypt hk hp hd
    obtain ⟨htk, htkv⟩ := (Session.mk.injEq ..).mp htsession
    obtain ⟨huk, hukv⟩ := (Session.mk.injEq ..).mp husession
    exact ⟨e, d, t, u, he, ht, hd, hu, htdelivered, hudelivered, htph, huph, htrsp, hursp, htkv, hukv, htk, huk⟩
  · obtain ⟨t, ht, hph, -, hsession, hdelivered⟩ := call_of_length_ne hkey hp
    obtain ⟨htk, htkv⟩ := (Session.mk.injEq ..).mp hsession
    exact ⟨t, ht _, ht _, hdelivered, hph, htkv, htk⟩

end Sys2Proof.Machine
end

section
/-! PROOFS. The system commands (spec/45_system.md R220 to R222): what `STAT` and `CLRKEY` answer, and which command ends a
session without a key. -/

namespace Sys2Proof.Machine

/-- R220: the flags byte is 1 with a key, 0 without. -/
theorem statFlags_eq_ite (kv : Bool) : statFlags kv = if kv then 0x01#8 else 0x00#8 := by
  cases kv
  · rfl
  · rfl

theorem exec_stat_nil (s : State) : exec (.stat []) s = .next (respondOk [statFlags s.kv] s) := rfl

theorem exec_clrkey_nil (s : State) : exec (.clrkey []) s = .next (respondOk [] (eraseKey s)) := rfl

/-- R222: from no key to a key the session changes, which takes a key command; `CLRKEY` and an ill-sized `LDKEY`
leave no key. -/
theorem ldkey_of_exec_kv {i : Instr} {s t : State} (hs : s.kv = false) (h : exec i s = .next t) (ht : t.kv = true) :
    ∃ pl, i = .ldkey pl ∧ pl.length = 16 := by
  have hc : t.session ≠ s.session := fun e => by simpa [State.session, hs, ht] using congrArg Session.kv e
  obtain hl | ⟨hcl, hp⟩ := exec_session_change h hc
  · have hi : i = .ldkey i.payload := i.opcode_instr_payload.symm.trans (by rw [hl]; rfl)
    refine ⟨i.payload, hi, by_contra fun hn => ?_⟩
    rw [hi, exec_ldkey_of_length_ne hn s] at h
    cases h
    cases ht
  · have hi : i = .clrkey [] := i.opcode_instr_payload.symm.trans (by rw [hcl, hp]; rfl)
    rw [hi, exec_clrkey_nil] at h
    cases h
    cases ht

/-- Settles O23: the flags byte by its two values; a payload is line 5 of the decode order. -/
theorem statAnswersTheFlagsByte : Obligations.StatAnswersTheFlagsByte := by
  unfold Obligations.StatAnswersTheFlagsByte
  refine fun s => ⟨?_, fun pl hn => exec_of_length_ne nofun nofun hn⟩
  rw [exec_stat_nil, statFlags_eq_ite]
  rfl

/-- Settles O26: the answers of `CLRKEY` and of a transform by the decode order; a key comes by `LDKEY` alone. -/
theorem clrkeyErasesTheKey : Obligations.ClrkeyErasesTheKey := by
  unfold Obligations.ClrkeyErasesTheKey
  exact fun s => ⟨exec_clrkey_nil s, fun pl hn => exec_of_length_ne nofun nofun hn,
    fun hk => ⟨fun i hi => exec_of_no_key hi hk, fun i t => ldkey_of_exec_kv hk⟩⟩

end Sys2Proof.Machine
end

section
/-! PROOFS. Taking an exception (spec/60_exceptions.md R240): the step on a packet, by what the decode order gives. -/

namespace Sys2Proof.Machine

/-- R73, R85: well-formed means well-sized. -/
theorem wf_iff (i : Instr) : i.wf = true ↔ i.payload.length = i.opcode.payloadLen := beq_iff_eq

/-- Settles O37: the error is raised, after erasing the key if it is a failed `LDKEY`'s, and neither touches another register; a
command is the one the packet encodes. -/
theorem errorsChangeOnlyTheResponse : Obligations.ErrorsChangeOnlyTheResponse := by
  unfold Obligations.ErrorsChangeOnlyTheResponse
  intro s p rest hp hs
  have hstep : step s = accept p (s.withTodo rest) := step_of_accept hp hs
  constructor
  · intro e he
    rw [hstep]
    obtain ⟨n, hn, h⟩ | ⟨hn, h⟩ := accept_of_verdict_error (s := s.withTodo rest) he
    · exact ⟨_, h, rfl, rfl, rfl, rfl, rfl, rfl, .inl ⟨⟨n, hn⟩, rfl, rfl⟩⟩
    · exact ⟨_, h, rfl, rfl, rfl, rfl, rfl, rfl, .inr ⟨hn, rfl, rfl⟩⟩
  · intro i hi
    obtain ⟨hdecode, hlength, -⟩ := verdict_ok hi
    exact ⟨(wf_iff i).mpr hlength, encode_of_decode hdecode, hstep.trans (accept_of_decode hdecode _)⟩

end Sys2Proof.Machine
end

section
/-! PROOFS. Reset (spec/70_reset_and_hazards.md R260 to R264) and the step counts (R279): the step of a host that asserts
reset, the answer to a transform after one, and the response to a packet under any host that does not reset. -/

namespace Sys2Proof.Machine

/-! ### Reset -/

/-- R40, R260: every transient register at its reset value. -/
@[simp] theorem resetRegisters_transients (s : State) :
    (resetRegisters s).transients = (0#32, 0#32, 0#32, 0#8, 0#3, 0#6, .encblk) := rfl

/-- Settles O45: whatever the phase, the step is `resetRegisters`, which leaves the host's side alone. -/
theorem resetWinsInEveryPhase : Obligations.ResetWinsInEveryPhase := by
  unfold Obligations.ResetWinsInEveryPhase
  intro s rest hs
  refine ⟨_, step_of_reset hs, rfl, rfl, ?_⟩
  rw [resetRegisters_transients]
  rfl

/-- R234: without a key, a transform and a take are two steps, which deliver `NoKey`. -/
theorem runSteps_two_of_no_key {s : State} {i : Instr} {rest : List HostAct} (hp : s.ph = .idle)
    (hs : s.todo = .send (encode i) :: .take :: rest) (hneed : i.opcode.needsKey = true) (hk : s.kv = false) :
    runSteps 2 s = .next (takeResponse ((raise .noKey s).withTodo rest)) := by
  have haccept : step s = .next (raise .noKey (s.withTodo (.take :: rest))) :=
    step_of_no_key (o := i.opcode) hp hs hneed hk
  rw [runSteps_succ_of_next 1 haccept, runSteps_succ_of_next 0 (step_of_take rfl rfl)]
  rfl

/-- Settles O46: the reset step leaves CORE in `IDLE` without a key. -/
theorem resetThenTransformAnswersNoKey : Obligations.ResetThenTransformAnswersNoKey := by
  unfold Obligations.ResetThenTransformAnswersNoKey
  intro s i rest hneed hs
  exact ⟨_, (runSteps_succ_of_next 2 (step_of_reset hs)).trans (runSteps_two_of_no_key rfl rfl hneed rfl),
    rfl, rfl, rfl, rfl, rfl⟩

/-! ### Step counts -/

/-- R279: a packet presented to a host that never resets again has its response after `stepsOf` steps, taken or not. -/
theorem respondsIn_stepsOf_of_no_reset {s : State} {p : Packet} {rest : List HostAct} (hp : s.ph = .idle)
    (hs : s.todo = .send p :: rest) (hr : HostAct.reset ∉ rest) : ∃ t, s.RespondsIn (stepsOf s.session p) t := by
  have hph : s.ph ≠ .resp := by simp [hp]
  obtain ⟨t, h, ht⟩ := accept_atomic p (s.withTodo rest)
  have hstep : step s = .next t := (step_of_accept hp hs).trans h
  obtain ⟨hsteps, ht⟩ | ⟨hsteps, ht⟩ := ht
  · have hone : stepsOf s.session p = 1 := hsteps
    exact ⟨t, hone ▸ (State.respondsIn_zero ht.ph).of_step hstep hph ht.delivered⟩
  · have hall : stepsOf s.session p = 34 := hsteps
    have hundisturbed : t.Undisturbed := .inl (by rw [ht.todo]; exact hr)
    obtain ⟨u, hu, -⟩ := running_respondsIn cfg.times ht.ph (by simp [ht.rnd]) hundisturbed
    exact ⟨u, hall ▸ hu.of_step hstep hph ht.delivered⟩

/-- R279: the count of a transform that is performed. -/
theorem stepsOf_of_transform {c : Session} {p : Packet} {i : Instr} (hv : verdict c.kv p = .ok i)
    (hneed : i.opcode.needsKey = true) : stepsOf c p = 34 := by
  simp [stepsOf, hv, hneed]

/-- R279: the count of every other command and of every error. -/
theorem stepsOf_of_no_transform {c : Session} {p : Packet}
    (h : ∀ i, verdict c.kv p = .ok i → i.opcode.needsKey = false) : stepsOf c p = 1 := by
  unfold stepsOf
  cases hv : verdict c.kv p with
  | error e => rfl
  | ok i => simp [h i hv]

/-- One step of a run is the step of the machine. -/
theorem step_of_runSteps_one {s t : State} (h : runSteps 1 s = .next t) : step s = .next t := by
  rw [← h]
  cases hs : step s <;> simp [runSteps, hs]

/-- Settles O53: the response comes after `stepsOf` steps, which are 34 or 1 by the decode order. -/
theorem stepCounts : Obligations.StepCounts := by
  unfold Obligations.StepCounts
  intro s p rest hp hs hr
  obtain ⟨t, ht⟩ := respondsIn_stepsOf_of_no_reset hp hs hr
  constructor
  · intro i hv hneed
    have hcount : stepsOf s.session p = 34 := stepsOf_of_transform hv hneed
    rw [hcount] at ht
    refine ⟨⟨t, ht.reaches, ht.ph⟩, fun n hn => ?_, hcount⟩
    obtain ⟨w, hw, hwph, -⟩ := ht.notBefore n hn
    exact ⟨w, hw, hwph⟩
  · intro h
    have hcount : stepsOf s.session p = 1 := stepsOf_of_no_transform h
    rw [hcount] at ht
    exact ⟨⟨t, step_of_runSteps_one ht.reaches, ht.ph⟩, hcount⟩

end Sys2Proof.Machine
end
